-- ==== Sys2Proof/Word.lean ====
section
/-! DEFINITION. The word types of the me-405 control core: bits only where the spec treats a value as bits. -/

namespace Sys2Proof

/-- One byte of a stored command word (spec 20_memory.md R47). -/
abbrev Byte := BitVec 8

/-- A 2-bit quadrature state or sample: bit 1 is line A, bit 0 is line B (R12, R82). -/
abbrev Pair := BitVec 2

/-- A 16-bit cell, operand or response datum; a signed one is two's complement (R7, R62). -/
abbrev Word16 := BitVec 16

/-- A 32-bit cell: the widest `integral_sum` (R6, R30). -/
abbrev Word32 := BitVec 32

/-- A host command word, `CW[111:0]` (R59). -/
abbrev CmdWord := BitVec 112

end Sys2Proof
end

