-- ==== Sys2Proof/Config.lean ====
section
/-! DEFINITION. The parameters and constants of the hardware (spec 00_scope.md R6), and its one free value. -/

namespace Sys2Proof

/-- `N_PID`, the number of PID instances: a parameter with legal range 1 to 4 (R6, U8). -/
inductive PidCount where
  | one | two | three | four
deriving DecidableEq, Repr

/-- The number a `PidCount` names. -/
def PidCount.toNat : PidCount → Nat
  | .one => 1
  | .two => 2
  | .three => 3
  | .four => 4

/-- `W_ISUM`, the width of `integral_sum`: a parameter with legal values 16 and 32 (R6, U9). -/
inductive IsumWidth where
  | w16 | w32
deriving DecidableEq, Repr

/-- The number of bits an `IsumWidth` names. -/
def IsumWidth.bits : IsumWidth → Nat
  | .w16 => 16
  | .w32 => 32

/-- The two parameters of R6. A machine carries them as data that no step writes (log 3). -/
structure Config where
  nPid : PidCount
  wIsum : IsumWidth
deriving DecidableEq, Repr

/-- The values this hardware takes: `N_PID = 2`, `W_ISUM = 16` (R6). -/
def Config.thisHardware : Config := { nPid := .two, wIsum := .w16 }

/-- `N_ENC`, the number of decoder and speed-estimator instances (R6). -/
def Config.nEnc : Nat := 2

/-- `SCALE`, the gain scale factor (R6). -/
def Config.scale : Int := 1024

/-- DESIGN CHOICE (log 6), safe: the result of `ssdiv_N(a, 0)`, which R113 and U5 leave undefined. A free
value, by width and dividend; nothing can be proved of it. No operation of the hardware reaches it. -/
opaque Config.ssdivByZero : Nat → Int → Int

end Sys2Proof
end

