-- ==== Sys2Proof/Syntax.lean ====
section
/-! DEFINITION. The 23 operations of the hardware (spec 30_encoding.md R60), one constructor per row of the
opcode table, with their operands decoded. -/

namespace Sys2Proof

/-- The six control laws of a PID instance (R21). -/
inductive Mode where
  | off | p | pi | pd | pid | manual
deriving DecidableEq, Repr

/-- A decoder instance, which is also the index of its event port (R41, R56). -/
abbrev Channel := Fin 2

/-- The instance field of a host command: two bits, unsigned (R59). -/
abbrev Inst := Fin 4

/-- An operation: one atomic step of one agent (R5, R8). `encStep` arrives on an event port, every other
one as a command word on the command port. -/
inductive Instr where
  /-- `ENC.STEP i, s` (R84). -/
  | encStep (port : Channel) (sample : Pair)
  /-- `ENC.RDTICK inst` (R86). -/
  | encRdtick (inst : Inst)
  /-- `ENC.RDERR inst` (R87). -/
  | encRderr (inst : Inst)
  /-- `ENC.RDSTATE inst` (R88). -/
  | encRdstate (inst : Inst)
  /-- `SPD.DIFF new_count, old_count` (R102). -/
  | spdDiff (newCount oldCount : Word16)
  /-- `SPD.SAMPLE inst` (R103). -/
  | spdSample (inst : Inst)
  /-- `PID.SETCFG inst, mode, Kp, Ki, Kd, Kw, min, max` (R131). -/
  | pidSetcfg (inst : Inst) (mode : Mode) (kp ki kd kw minLimit maxLimit : Word16)
  /-- `PID.COMPUTE inst, new_input, new_setpoint` (R133). -/
  | pidCompute (inst : Inst) (newInput newSetpoint : Word16)
  /-- `PID.SETMODE inst, mode` (R132). -/
  | pidSetmode (inst : Inst) (mode : Mode)
  /-- `PID.SETKP inst, v` (R142). -/
  | pidSetkp (inst : Inst) (v : Word16)
  /-- `PID.SETKI inst, v` (R143). -/
  | pidSetki (inst : Inst) (v : Word16)
  /-- `PID.SETKD inst, v` (R144). -/
  | pidSetkd (inst : Inst) (v : Word16)
  /-- `PID.SETKW inst, v` (R145). -/
  | pidSetkw (inst : Inst) (v : Word16)
  /-- `PID.SETOUT inst, v` (R146). -/
  | pidSetout (inst : Inst) (v : Word16)
  /-- `PID.SETIN inst, v` (R147). -/
  | pidSetin (inst : Inst) (v : Word16)
  /-- `PID.SETSP inst, v` (R148). -/
  | pidSetsp (inst : Inst) (v : Word16)
  /-- `PID.GETKP inst` (R149). -/
  | pidGetkp (inst : Inst)
  /-- `PID.GETKI inst` (R150). -/
  | pidGetki (inst : Inst)
  /-- `PID.GETKD inst` (R151). -/
  | pidGetkd (inst : Inst)
  /-- `PID.GETKW inst` (R152). -/
  | pidGetkw (inst : Inst)
  /-- `PID.GETOUT inst` (R153). -/
  | pidGetout (inst : Inst)
  /-- `PID.GETIN inst` (R154). -/
  | pidGetin (inst : Inst)
  /-- `PID.GETSP inst` (R155). -/
  | pidGetsp (inst : Inst)
deriving DecidableEq, Repr

/-- Why a command word is rejected (R58, R184). -/
inductive Rejection where
  /-- Code 1: the opcode is none of the 22 (R64). -/
  | reservedOp
  /-- Code 2: the instance is at or above the instance count of the block (R65). -/
  | badInst
  /-- Code 3: a must-be-zero field is not zero, or `mode` is 6 or 7 (R63, R66). -/
  | badField
deriving DecidableEq, Repr

end Sys2Proof
end

