-- ==== Sys2Proof/WellFormed.lean ====
section
/-! DEFINITION. Which operations exist on a machine with given parameters: the instance ranges of spec
30_encoding.md R65. Every other operand takes every value of its type (R56, R130, R131). -/

namespace Sys2Proof

/-- `inst` names a decoder instance (R41, R65). -/
def encInstOk (n : Inst) : Bool := decide (n.val < Config.nEnc)

/-- `inst` names a PID instance of a machine with parameters `c` (R41, R65). -/
def pidInstOk (c : Config) (n : Inst) : Bool := decide (n.val < c.nPid.toNat)

/-- The operation exists on a machine with parameters `c` (R65). -/
def Instr.wf (c : Config) : Instr → Bool
  | .encStep _ _ => true
  | .encRdtick n => encInstOk n
  | .encRderr n => encInstOk n
  | .encRdstate n => encInstOk n
  | .spdDiff _ _ => true
  | .spdSample n => encInstOk n
  | .pidSetcfg n _ _ _ _ _ _ _ => pidInstOk c n
  | .pidCompute n _ _ => pidInstOk c n
  | .pidSetmode n _ => pidInstOk c n
  | .pidSetkp n _ => pidInstOk c n
  | .pidSetki n _ => pidInstOk c n
  | .pidSetkd n _ => pidInstOk c n
  | .pidSetkw n _ => pidInstOk c n
  | .pidSetout n _ => pidInstOk c n
  | .pidSetin n _ => pidInstOk c n
  | .pidSetsp n _ => pidInstOk c n
  | .pidGetkp n => pidInstOk c n
  | .pidGetki n => pidInstOk c n
  | .pidGetkd n => pidInstOk c n
  | .pidGetkw n => pidInstOk c n
  | .pidGetout n => pidInstOk c n
  | .pidGetin n => pidInstOk c n
  | .pidGetsp n => pidInstOk c n

end Sys2Proof
end

