-- ==== Sys2Proof/Decode.lean ====
section
/-! DEFINITION. The command word, its formats, the decode function of spec 30_encoding.md R71 and the encoder
(R56 to R67). Decoding is total on any 112 bits and rejects by code. -/

namespace Sys2Proof

/-! ## Modes and opcodes -/

/-- The 3-bit encoding of a mode (R21). -/
def Mode.toBits : Mode → BitVec 3
  | .off => 0#3
  | .p => 1#3
  | .pi => 2#3
  | .pd => 3#3
  | .pid => 4#3
  | .manual => 5#3

/-- The mode a 3-bit value stands for; 6 and 7 are reserved (R21, R66). -/
def Mode.ofBits (b : BitVec 3) : Option Mode :=
  match b.toNat with
  | 0 => some .off
  | 1 => some .p
  | 2 => some .pi
  | 3 => some .pd
  | 4 => some .pid
  | 5 => some .manual
  | _ => none

/-- The 22 opcodes of the command port, in the order of R60. -/
inductive Opcode where
  | encRdtick | encRderr | encRdstate | spdDiff | spdSample
  | pidSetcfg | pidCompute | pidSetmode
  | pidSetkp | pidSetki | pidSetkd | pidSetkw | pidSetout | pidSetin | pidSetsp
  | pidGetkp | pidGetki | pidGetkd | pidGetkw | pidGetout | pidGetin | pidGetsp
deriving DecidableEq, Repr

/-- The opcode numbers of R60. -/
def Opcode.toBits : Opcode → BitVec 5
  | .encRdtick => 0x01#5
  | .encRderr => 0x02#5
  | .encRdstate => 0x03#5
  | .spdDiff => 0x04#5
  | .spdSample => 0x05#5
  | .pidSetcfg => 0x08#5
  | .pidCompute => 0x09#5
  | .pidSetmode => 0x0A#5
  | .pidSetkp => 0x10#5
  | .pidSetki => 0x11#5
  | .pidSetkd => 0x12#5
  | .pidSetkw => 0x13#5
  | .pidSetout => 0x14#5
  | .pidSetin => 0x15#5
  | .pidSetsp => 0x16#5
  | .pidGetkp => 0x18#5
  | .pidGetki => 0x19#5
  | .pidGetkd => 0x1A#5
  | .pidGetkw => 0x1B#5
  | .pidGetout => 0x1C#5
  | .pidGetin => 0x1D#5
  | .pidGetsp => 0x1E#5

/-- The operation an opcode field selects; ten of the 32 values are reserved (R60, R64). -/
def Opcode.ofBits (b : BitVec 5) : Option Opcode :=
  match b.toNat with
  | 0x01 => some .encRdtick
  | 0x02 => some .encRderr
  | 0x03 => some .encRdstate
  | 0x04 => some .spdDiff
  | 0x05 => some .spdSample
  | 0x08 => some .pidSetcfg
  | 0x09 => some .pidCompute
  | 0x0A => some .pidSetmode
  | 0x10 => some .pidSetkp
  | 0x11 => some .pidSetki
  | 0x12 => some .pidSetkd
  | 0x13 => some .pidSetkw
  | 0x14 => some .pidSetout
  | 0x15 => some .pidSetin
  | 0x16 => some .pidSetsp
  | 0x18 => some .pidGetkp
  | 0x19 => some .pidGetki
  | 0x1A => some .pidGetkd
  | 0x1B => some .pidGetkw
  | 0x1C => some .pidGetout
  | 0x1D => some .pidGetin
  | 0x1E => some .pidGetsp
  | _ => none

/-- The six command formats of R61. -/
inductive Format where
  | n | m | v | d | c | g
deriving DecidableEq, Repr

/-- The format column of R60. -/
def Opcode.format : Opcode → Format
  | .encRdtick | .encRderr | .encRdstate | .spdSample => .n
  | .spdDiff => .d
  | .pidSetcfg => .g
  | .pidCompute => .c
  | .pidSetmode => .m
  | .pidSetkp | .pidSetki | .pidSetkd | .pidSetkw | .pidSetout | .pidSetin | .pidSetsp => .v
  | .pidGetkp | .pidGetki | .pidGetkd | .pidGetkw | .pidGetout | .pidGetin | .pidGetsp => .n

/-- Whether a format uses the `inst` field (R61). -/
def Format.usesInst : Format → Bool
  | .d => false
  | .n | .m | .v | .c | .g => true

/-- Whether a format uses the `mode` field (R61). -/
def Format.usesMode : Format → Bool
  | .m | .g => true
  | .n | .v | .d | .c => false

/-- How many of the value fields `a0` to `a5` a format uses; they are always the first ones (R61). -/
def Format.nValues : Format → Nat
  | .n | .m => 0
  | .v => 1
  | .d | .c => 2
  | .g => 6

/-- The instance count an opcode's `inst` field is checked against: `N_ENC` for `ENC.*` and `SPD.SAMPLE`,
`N_PID` for `PID.*`; `SPD.DIFF` has no instance (R65, R71 step 2). -/
def Opcode.instOk (c : Config) (n : Inst) : Opcode → Bool
  | .encRdtick | .encRderr | .encRdstate | .spdSample => encInstOk n
  | .spdDiff => true
  | .pidSetcfg | .pidCompute | .pidSetmode
  | .pidSetkp | .pidSetki | .pidSetkd | .pidSetkw | .pidSetout | .pidSetin | .pidSetsp
  | .pidGetkp | .pidGetki | .pidGetkd | .pidGetkw | .pidGetout | .pidGetin | .pidGetsp => pidInstOk c n

/-! ## The fields of a command word -/

/-- The ten fields of a command word (R59). -/
structure Fields where
  op : BitVec 5
  inst : BitVec 2
  mode : BitVec 3
  rsv : BitVec 6
  a0 : Word16
  a1 : Word16
  a2 : Word16
  a3 : Word16
  a4 : Word16
  a5 : Word16
deriving DecidableEq, Repr

/-- The field at the bit positions of R59, for every field. -/
def Fields.ofWord (cw : CmdWord) : Fields :=
  { op := cw.extractLsb' 107 5
    inst := cw.extractLsb' 105 2
    mode := cw.extractLsb' 102 3
    rsv := cw.extractLsb' 96 6
    a0 := cw.extractLsb' 80 16
    a1 := cw.extractLsb' 64 16
    a2 := cw.extractLsb' 48 16
    a3 := cw.extractLsb' 32 16
    a4 := cw.extractLsb' 16 16
    a5 := cw.extractLsb' 0 16 }

/-- A field at the bit position `lo` of a command word, zeros elsewhere (R59). -/
def placeAt {w : Nat} (lo : Nat) (x : BitVec w) : CmdWord := x.setWidth 112 <<< lo

/-- The word with the given fields: the header is `(op << 11) | (inst << 9) | (mode << 6) | rsv`, at bit 96, and
the six values follow it, `a5` lowest (R59). -/
def Fields.toWord (f : Fields) : CmdWord :=
  placeAt 107 f.op ||| placeAt 105 f.inst ||| placeAt 102 f.mode ||| placeAt 96 f.rsv ||| placeAt 80 f.a0 |||
    placeAt 64 f.a1 ||| placeAt 48 f.a2 ||| placeAt 32 f.a3 ||| placeAt 16 f.a4 ||| placeAt 0 f.a5

/-- The `inst` field as an index (R62: unsigned). -/
def Fields.instIdx (f : Fields) : Inst := ⟨f.inst.toNat, f.inst.isLt⟩

/-- The value fields beyond the first `n` are zero (R63). -/
def Fields.valuesZeroFrom (n : Nat) (f : Fields) : Bool :=
  (decide (0 < n) || f.a0 == 0#16) && (decide (1 < n) || f.a1 == 0#16) && (decide (2 < n) || f.a2 == 0#16) &&
    (decide (3 < n) || f.a3 == 0#16) && (decide (4 < n) || f.a4 == 0#16) && (decide (5 < n) || f.a5 == 0#16)

/-- Step 3 of R71: `rsv` and every field the format does not use are zero, and a used `mode` is below 6. -/
def Fields.fieldsOk (fmt : Format) (f : Fields) : Bool :=
  f.rsv == 0#6 && (fmt.usesInst || f.inst == 0#2) &&
    (if fmt.usesMode then (Mode.ofBits f.mode).isSome else f.mode == 0#3) && f.valuesZeroFrom fmt.nValues

/-- The operation an opcode and its used fields denote, operands as R60 orders them; `none` where a used
`mode` is reserved (R66). -/
def Opcode.build (f : Fields) : Opcode → Option Instr
  | .encRdtick => some (.encRdtick f.instIdx)
  | .encRderr => some (.encRderr f.instIdx)
  | .encRdstate => some (.encRdstate f.instIdx)
  | .spdDiff => some (.spdDiff f.a0 f.a1)
  | .spdSample => some (.spdSample f.instIdx)
  | .pidSetcfg =>
    (Mode.ofBits f.mode).map fun m => .pidSetcfg f.instIdx m f.a0 f.a1 f.a2 f.a3 f.a4 f.a5
  | .pidCompute => some (.pidCompute f.instIdx f.a0 f.a1)
  | .pidSetmode => (Mode.ofBits f.mode).map fun m => .pidSetmode f.instIdx m
  | .pidSetkp => some (.pidSetkp f.instIdx f.a0)
  | .pidSetki => some (.pidSetki f.instIdx f.a0)
  | .pidSetkd => some (.pidSetkd f.instIdx f.a0)
  | .pidSetkw => some (.pidSetkw f.instIdx f.a0)
  | .pidSetout => some (.pidSetout f.instIdx f.a0)
  | .pidSetin => some (.pidSetin f.instIdx f.a0)
  | .pidSetsp => some (.pidSetsp f.instIdx f.a0)
  | .pidGetkp => some (.pidGetkp f.instIdx)
  | .pidGetki => some (.pidGetki f.instIdx)
  | .pidGetkd => some (.pidGetkd f.instIdx)
  | .pidGetkw => some (.pidGetkw f.instIdx)
  | .pidGetout => some (.pidGetout f.instIdx)
  | .pidGetin => some (.pidGetin f.instIdx)
  | .pidGetsp => some (.pidGetsp f.instIdx)

/-! ## The decode function -/

/-- What decoding answers: an operation with its operands, or a rejection (R71). -/
inductive Decoded where
  | op (i : Instr)
  | reject (r : Rejection)
deriving DecidableEq, Repr

/-- Steps 2 to 4 of R71, for a word whose opcode is `o`. -/
def decodeFields (c : Config) (f : Fields) (o : Opcode) : Decoded :=
  if o.instOk c f.instIdx then
    if f.fieldsOk o.format then
      match o.build f with
      | some i => .op i
      | none => .reject .badField
    else .reject .badField
  else .reject .badInst

/-- The decode function of R71 on a machine with parameters `c`: opcode, instance, fields, in that order;
the first check that fails gives the rejection (R185). -/
def decode (c : Config) (cw : CmdWord) : Decoded :=
  match Opcode.ofBits (Fields.ofWord cw).op with
  | none => .reject .reservedOp
  | some o => decodeFields c (Fields.ofWord cw) o

/-- What one of the two kinds of interface carries (R55): an edge event with its sample on an event port,
or a command word on the command port. -/
inductive PortWord where
  | event (port : Channel) (sample : Pair)
  | command (cw : CmdWord)
deriving DecidableEq, Repr

/-- Decoding at an interface: every sample is legal (R56), a command word is decoded by R71. -/
def decodePort (c : Config) : PortWord → Decoded
  | .event i s => .op (.encStep i s)
  | .command cw => decode c cw

/-! ## The encoder -/

/-- A word of the fields R61 lets some format use; a field that an operation does not use is passed as 0. -/
def packWord (o : Opcode) (inst : Inst) (mode : BitVec 3) (a0 a1 a2 a3 a4 a5 : Word16) : CmdWord :=
  Fields.toWord
    { op := o.toBits, inst := BitVec.ofNat 2 inst.val, mode := mode, rsv := 0#6
      a0 := a0, a1 := a1, a2 := a2, a3 := a3, a4 := a4, a5 := a5 }

/-- Format N (R61). -/
def packN (o : Opcode) (inst : Inst) : PortWord := .command (packWord o inst 0#3 0#16 0#16 0#16 0#16 0#16 0#16)

/-- Format V (R61). -/
def packV (o : Opcode) (inst : Inst) (v : Word16) : PortWord :=
  .command (packWord o inst 0#3 v 0#16 0#16 0#16 0#16 0#16)

/-- The words of an operation (R56, R59, R60, R61). -/
def encode : Instr → PortWord
  | .encStep i s => .event i s
  | .encRdtick n => packN .encRdtick n
  | .encRderr n => packN .encRderr n
  | .encRdstate n => packN .encRdstate n
  | .spdDiff new old => .command (packWord .spdDiff 0 0#3 new old 0#16 0#16 0#16 0#16)
  | .spdSample n => packN .spdSample n
  | .pidSetcfg n m kp ki kd kw lo hi => .command (packWord .pidSetcfg n m.toBits kp ki kd kw lo hi)
  | .pidCompute n x sp => .command (packWord .pidCompute n 0#3 x sp 0#16 0#16 0#16 0#16)
  | .pidSetmode n m => .command (packWord .pidSetmode n m.toBits 0#16 0#16 0#16 0#16 0#16 0#16)
  | .pidSetkp n v => packV .pidSetkp n v
  | .pidSetki n v => packV .pidSetki n v
  | .pidSetkd n v => packV .pidSetkd n v
  | .pidSetkw n v => packV .pidSetkw n v
  | .pidSetout n v => packV .pidSetout n v
  | .pidSetin n v => packV .pidSetin n v
  | .pidSetsp n v => packV .pidSetsp n v
  | .pidGetkp n => packN .pidGetkp n
  | .pidGetki n => packN .pidGetki n
  | .pidGetkd n => packN .pidGetkd n
  | .pidGetkw n => packN .pidGetkw n
  | .pidGetout n => packN .pidGetout n
  | .pidGetin n => packN .pidGetin n
  | .pidGetsp n => packN .pidGetsp n

/-! ## Command words as bytes -/

/-- A command word as 14 bytes, byte 0 the highest (R47: big-endian). -/
def toBytes (cw : CmdWord) : List Byte :=
  [cw.extractLsb' 104 8, cw.extractLsb' 96 8, cw.extractLsb' 88 8, cw.extractLsb' 80 8, cw.extractLsb' 72 8,
    cw.extractLsb' 64 8, cw.extractLsb' 56 8, cw.extractLsb' 48 8, cw.extractLsb' 40 8, cw.extractLsb' 32 8,
    cw.extractLsb' 24 8, cw.extractLsb' 16 8, cw.extractLsb' 8 8, cw.extractLsb' 0 8]

/-- The command word 14 big-endian bytes spell; no other length is a command word (R47, R67). -/
def ofBytes : List Byte → Option CmdWord
  | [b0, b1, b2, b3, b4, b5, b6, b7, b8, b9, b10, b11, b12, b13] =>
    some (b0 ++ b1 ++ b2 ++ b3 ++ b4 ++ b5 ++ b6 ++ b7 ++ b8 ++ b9 ++ b10 ++ b11 ++ b12 ++ b13)
  | _ => none

/-- Decoding a stored command word. `none`: the bytes are not one command word. -/
def decodeBytes (c : Config) (bs : List Byte) : Option Decoded := (ofBytes bs).map (decode c)

/-! ## The opcode table's words -/

/-- What a word of the opcode table is at the interfaces (log 9): the table's words of fewer than 112 bits
are samples of the edge step, taken on event port 0; those of 112 bits are command words. -/
def PortWord.ofTableWord (nbits w : Nat) : Option PortWord :=
  if nbits < 112 then
    if w < 4 then some (.event 0 (BitVec.ofNat 2 w)) else none
  else if w < 2 ^ 112 then (ofBytes (toBytes (BitVec.ofNat 112 w))).map .command
  else none

/-- The operation this hardware decodes from a word of the opcode table, or none where it rejects it. -/
def decodeTableWord (nbits w : Nat) : Option Instr :=
  match PortWord.ofTableWord nbits w with
  | none => none
  | some pw =>
    match decodePort Config.thisHardware pw with
    | .op i => some i
    | .reject _ => none

end Sys2Proof
end

