-- ==== Sys2Proof/Machine/State.lean ====
section
/-! DEFINITION. The state of the machine (spec 10_state.md), the ports (R55), the stops and the reset state
(R211). Plain data. -/

namespace Sys2Proof.Machine

/-- Why the machine stops with a fault. -/
inductive Fault where
  /-- Raised by `PID.COMPUTE` alone, on PID instance `inst` whose `mode` cell holds 6 or 7: the illegal
  internal state of R187 (U4), which no rule can produce. Safe: the spec forbids the machine to go on. -/
  | illegalMode (inst : Inst)
deriving DecidableEq, Repr

/-- Why the machine gives no meaning. -/
inductive Refusal where
  /-- Raised by `exec` alone, for an operation without a meaning; no arm does so any more. Safe. -/
  | notModelled (mnemonic : String)
deriving DecidableEq, Repr

/-- One decoder instance, the source's EncoderChannelState (R10 to R14). -/
structure Decoder where
  /-- R11. -/
  oldState : Pair
  /-- R12. -/
  newState : Pair
  /-- R13, signed. -/
  tickCount : Word16
  /-- R14, unsigned. -/
  errorCount : Word16
deriving DecidableEq, Repr

/-- One speed-estimator instance (R16). -/
structure Estimator where
  /-- The tick-count snapshot of the previous sampling period, signed (R16). -/
  prevCount : Word16
deriving DecidableEq, Repr

/-- One PID instance, the source's PIDState (R20). Every 16-bit cell is signed. -/
structure Pid where
  /-- The 3-bit encoding of the control law; 6 and 7 are reserved (R21). -/
  mode : BitVec 3
  /-- True gain times 1024 (R22). -/
  kp : Word16
  /-- True gain times 1024 (R22). -/
  ki : Word16
  /-- True gain times 1024 (R22). -/
  kd : Word16
  /-- The anti-windup gain, times 1024 (R22). -/
  kw : Word16
  /-- `min` (R23). -/
  minLimit : Word16
  /-- `max` (R23). -/
  maxLimit : Word16
  /-- R24. -/
  input : Word16
  /-- R25. -/
  setpoint : Word16
  /-- R26. -/
  output : Word16
  /-- R27. -/
  error : Word16
  /-- R28. -/
  lastInput : Word16
  /-- R29. -/
  dInput : Word16
  /-- The accumulator, sign-extended from `W_ISUM` bits (R30, log 4). -/
  integralSum : Word32
  /-- R31. -/
  saturationAmount : Word16
deriving DecidableEq, Repr

/-- The response code of a host command (R58). -/
inductive RspCode where
  | ok | reservedOp | badInst | badField
deriving DecidableEq, Repr

/-- `rsp_code` and `rsp_data` in a cycle with `rsp_valid = 1` (R55, R58). -/
structure Response where
  code : RspCode
  data : Word16
deriving DecidableEq, Repr

/-- The input pins in one clock cycle (R55): `rst`; per channel the sample where `enc_evt[i] = 1`; the command
word where `cmd_valid = 1`. -/
structure Cycle where
  rst : Bool
  evt : Vector (Option Pair) 2
  cmd : Option CmdWord
deriving DecidableEq, Repr

/-- The machine and its ports. -/
structure State where
  /-- The parameters of R6, which no step writes (the model's own field, log 3). -/
  cfg : Config
  /-- The decoder instances (R10). -/
  enc : Vector Decoder 2
  /-- The speed-estimator instances (R16). -/
  spd : Vector Estimator 2
  /-- The PID instances (R20); a slot at or above `N_PID` is no instance (log 5). -/
  pid : Vector Pid 4
  /-- The pins of the coming cycles, next cycle first; after the last one the ports are idle (the model's own
  field, log 1). -/
  inputs : List Cycle
  /-- The response port in the cycle just executed, `none` for `rsp_valid = 0` (the model's own field, log 2). -/
  rsp : Option Response
deriving DecidableEq, Repr

/-- A decoder at reset (R11 to R14, R211). -/
def Decoder.reset : Decoder := { oldState := 0, newState := 0, tickCount := 0, errorCount := 0 }

/-- A speed estimator at reset (R16, R211). -/
def Estimator.reset : Estimator := { prevCount := 0 }

/-- A PID instance at reset (R21 to R31, R211): mode OFF, every other cell 0. -/
def Pid.reset : Pid :=
  { mode := 0, kp := 0, ki := 0, kd := 0, kw := 0, minLimit := 0, maxLimit := 0, input := 0, setpoint := 0
    output := 0, error := 0, lastInput := 0, dInput := 0, integralSum := 0, saturationAmount := 0 }

/-- The reset state of a machine with parameters `c` (R211), its ports idle. -/
def State.resetWith (c : Config) : State :=
  { cfg := c, enc := #v[Decoder.reset, Decoder.reset], spd := #v[Estimator.reset, Estimator.reset]
    pid := #v[Pid.reset, Pid.reset, Pid.reset, Pid.reset], inputs := [], rsp := none }

/-- The machine right after reset, with this hardware's parameters (R6, R211). -/
def State.reset : State := State.resetWith Config.thisHardware

end Sys2Proof.Machine
end

