-- ==== Sys2Proof/Machine/Flags.lean ====
section
/-! DEFINITION. The hardware has no status flags (spec 10_state.md R33). The three things that play a flag's part
stand here: the classification of an edge step, the clamp a PID instance remembers, the response code. -/

namespace Sys2Proof.Machine

/-- The classification of an edge step (R85): it is not stored anywhere. -/
inductive Transition where
  | plus | minus | error
deriving DecidableEq, Repr

/-- The successor of a 2-bit state that means one tick clockwise, `PLUS` of R81. -/
def plusOf (o : Pair) : Pair :=
  match o.toNat with
  | 0b00 => 0b10#2
  | 0b10 => 0b11#2
  | 0b11 => 0b01#2
  | _ => 0b00#2

/-- The successor of a 2-bit state that means one tick counter-clockwise, `MINUS` of R81. -/
def minusOf (o : Pair) : Pair :=
  match o.toNat with
  | 0b00 => 0b01#2
  | 0b10 => 0b00#2
  | 0b11 => 0b10#2
  | _ => 0b11#2

/-- Step 3 of R84: what the sample `s` means after the state `o`. -/
def classify (o s : Pair) : Transition :=
  if s = plusOf o then .plus else if s = minusOf o then .minus else .error

/-- What the sign of `saturation_amount` tells of the last compute (R33 b): which limit it clamped to. -/
inductive Clamp where
  | none | high | low
deriving DecidableEq, Repr

/-- The clamp a PID instance remembers (R33 b). -/
def clampOf (c : Pid) : Clamp :=
  if 0 < c.saturationAmount.toInt then .high else if c.saturationAmount.toInt < 0 then .low else .none

/-- The response code of a rejection (R58, R184). -/
def rejectionCode : Rejection → RspCode
  | .reservedOp => .reservedOp
  | .badInst => .badInst
  | .badField => .badField

/-- The two bits of `rsp_code` (R58). -/
def RspCode.toBits : RspCode → BitVec 2
  | .ok => 0#2
  | .reservedOp => 1#2
  | .badInst => 2#2
  | .badField => 3#2

end Sys2Proof.Machine
end

