-- ==== Sys2Proof/Machine/Saturating.lean ====
section
/-! DEFINITION. The integer laws of the hardware: `sat_N`, `wrap_N`, `tdiv` (spec 00_scope.md R7) and the
saturating primitives of 42_saturating_arithmetic.md (R110 to R117), on mathematical integers. -/

namespace Sys2Proof.Machine

/-- `MAX_N` (R7). -/
def maxOf (n : Nat) : Int := 2 ^ (n - 1) - 1

/-- `MIN_N` (R7). -/
def minOf (n : Nat) : Int := -2 ^ (n - 1)

/-- `sat_N(x)`: `x` limited to the signed `N`-bit range (R7). -/
def sat (n : Nat) (x : Int) : Int := max (minOf n) (min (maxOf n) x)

/-- `tdiv(a, b)` for `b != 0`: the quotient rounded toward zero (R7). -/
def tdiv (a b : Int) : Int := a.sign * b.sign * ((a.natAbs / b.natAbs : Nat) : Int)

/-- `ssadd_N` (R110). -/
def ssadd (n : Nat) (a b : Int) : Int := sat n (a + b)

/-- `sssub_N` (R111). -/
def sssub (n : Nat) (a b : Int) : Int := sat n (a - b)

/-- `ssmul_N` (R112). -/
def ssmul (n : Nat) (a b : Int) : Int := sat n (a * b)

/-- `ssdiv_N` (R113). Its value at `b = 0` is free (U5, log 6). -/
def ssdiv (n : Nat) (a b : Int) : Int :=
  if b = 0 then Config.ssdivByZero n a else sat n (tdiv a b)

/-- The scaled multiply `gmul(K, v)` (R115): the product at 32 bits first, then the division. -/
def gmul (k v : Int) : Int := ssdiv 32 (ssmul 32 k v) Config.scale

end Sys2Proof.Machine
end

