-- ==== Sys2Proof/Machine/Operands.lean ====
section
/-! DEFINITION. How operands select a cell and how values go in and out of cells (spec 30_encoding.md R62, R74;
42_saturating_arithmetic.md R117). -/

namespace Sys2Proof.Machine

/-- The decoder an `inst` operand selects; values 2 and 3 are reserved (R41, R65). -/
def channelOf (n : Inst) : Option Channel :=
  if h : n.val < 2 then some ⟨n.val, h⟩ else none

/-- Whether an `inst` operand selects a PID instance of the machine (R41, R65). -/
def hasPid (s : State) (n : Inst) : Bool := decide (n.val < s.cfg.nPid.toNat)

/-- A 16-bit cell read as a signed integer, `sext_16` (R7, R62). -/
abbrev sext (v : Word16) : Int := v.toInt

/-- A signed 16-bit value as a cell (R7, D29). Every use stores an integer in range, but for the counters and
the speed value, where dropping the high bits is `wrap_16` (R13, R101). -/
def cell16 (x : Int) : Word16 := BitVec.ofInt 16 x

/-- The accumulator read as a signed integer (R30, log 4). -/
abbrev sextSum (v : Word32) : Int := v.toInt

/-- A signed value of at most 32 bits as the accumulator cell (R30, log 4). -/
def cellSum (x : Int) : Word32 := BitVec.ofInt 32 x

/-- The answer of `ENC.RDSTATE`: `old_state` in bits 3:2, `new_state` in bits 1:0, zeros above (R62, R88). -/
def packStates (d : Decoder) : Word16 := (d.oldState ++ d.newState).setWidth 16

end Sys2Proof.Machine
end

