-- ==== Sys2Proof/Machine/Ops.lean ====
section
/-! DEFINITION. The shared operations on the state: cell writes (spec 20_memory.md R42), the response port (R58), the
rejection (60_exceptions.md R184), reset (R210) and the taking of a cycle's pins (R55). The hardware takes no trap
and has no return (R192, R193); the rejection is its one shared error response. -/

namespace Sys2Proof.Machine

/-- What an operation or a cycle answers. -/
abbrev Result := Host.Outcome State Fault Refusal

/-! ## The response port -/

/-- `rsp <- (0, data)` (R58). -/
def State.respond (s : State) (data : Word16) : State := { s with rsp := some { code := .ok, data := data } }

/-- `reject(code)`: no state changes and the response is `(code, 0)` (R7, R184). -/
def State.reject (s : State) (r : Rejection) : State :=
  { s with rsp := some { code := rejectionCode r, data := 0 } }

/-- The response port of a cycle in which no command executes: `rsp_valid = 0` (R57). -/
def State.noResponse (s : State) : State := { s with rsp := none }

/-! ## Cells -/

/-- Replace decoder `i` (R42). -/
def State.setEnc (s : State) (i : Channel) (d : Decoder) : State := { s with enc := s.enc.set i d }

/-- Replace the register of speed estimator `i` (R42). -/
def State.setPrev (s : State) (i : Channel) (n : Word16) : State := { s with spd := s.spd.set i { prevCount := n } }

/-- Replace PID instance `p` (R42). -/
def State.setPid (s : State) (p : Inst) (c : Pid) : State := { s with pid := s.pid.set p c }

/-! ## Operations on an instance -/

/-- Run `k` on the decoder an `inst` operand selects, or reject the command (R65, R184). -/
def onChannel (s : State) (n : Inst) (k : Channel → Result) : Result :=
  match channelOf n with
  | some i => k i
  | none => .next (s.reject .badInst)

/-- Run `k` if an `inst` operand selects a PID instance, or reject the command (R65, R184). -/
def onPid (s : State) (n : Inst) (k : Result) : Result :=
  if hasPid s n then k else .next (s.reject .badInst)

/-- A command that returns one value of a decoder and changes nothing (R43). -/
def readEnc (s : State) (n : Inst) (get : Decoder → Word16) : Result :=
  onChannel s n fun i => .next (s.respond (get s.enc[i]))

/-- A command that returns one cell of a PID instance and changes nothing (R43, R162). -/
def readPid (s : State) (n : Inst) (get : Pid → Word16) : Result :=
  onPid s n (.next (s.respond (get s.pid[n])))

/-- A command that writes cells of a PID instance and returns nothing (R58, R161). -/
def writePid (s : State) (n : Inst) (put : Pid → Pid) : Result :=
  onPid s n (.next ((s.setPid n (put s.pid[n])).respond 0))

/-! ## Reset and the pins -/

/-- Every field of 10_state.md at its reset value, no response (R210, R211). The parameters and what the
environment presents next are no fields of 10_state.md. -/
def State.resetAll (s : State) : State := { State.resetWith s.cfg with inputs := s.inputs }

/-- A cycle in which nothing is presented (R57). -/
def Cycle.idle : Cycle := { rst := false, evt := #v[none, none], cmd := none }

/-- The cycle in which one edge event is presented and nothing else (R56). -/
def Cycle.ofEvent (i : Channel) (ab : Pair) : Cycle := { Cycle.idle with evt := Cycle.idle.evt.set i (some ab) }

/-- The cycle in which one command is presented and nothing else (R57). -/
def Cycle.ofCommand (cw : CmdWord) : Cycle := { Cycle.idle with cmd := some cw }

/-- The cycle that presents one word at its interface and nothing else (R55). -/
def Cycle.ofPortWord : PortWord → Cycle
  | .event i ab => Cycle.ofEvent i ab
  | .command cw => Cycle.ofCommand cw

/-- The pins of the cycle about to execute (R55, log 1). -/
def State.pins (s : State) : Cycle :=
  match s.inputs with
  | [] => Cycle.idle
  | c :: _ => c

/-- The state once that cycle's pins are taken; nothing is kept of them (R35). -/
def State.takePins (s : State) : State := { s with inputs := s.inputs.tail }

/-- The state with `c` as the pins of the cycle about to execute, in place of what was presented there. -/
def State.withPins (s : State) (c : Cycle) : State := { s with inputs := c :: s.inputs.tail }

end Sys2Proof.Machine
end

