-- ==== Sys2Proof/Machine/PidAccess.lean ====
section
/-! DEFINITION. The seven setters and seven getters of the PID controller (spec 43_pid_controller.md, sections 4
and 5; R161, R162). -/

namespace Sys2Proof.Machine

/-- `PID.SETKP inst, v` (R142). -/
def execPidSetkp (inst : Inst) (v : Word16) (s : State) : Result := writePid s inst fun c => { c with kp := v }

/-- `PID.SETKI inst, v` (R143). -/
def execPidSetki (inst : Inst) (v : Word16) (s : State) : Result := writePid s inst fun c => { c with ki := v }

/-- `PID.SETKD inst, v` (R144). -/
def execPidSetkd (inst : Inst) (v : Word16) (s : State) : Result := writePid s inst fun c => { c with kd := v }

/-- `PID.SETKW inst, v` (R145). -/
def execPidSetkw (inst : Inst) (v : Word16) (s : State) : Result := writePid s inst fun c => { c with kw := v }

/-- `PID.SETOUT inst, v` (R146): the value is stored as given, not clamped. -/
def execPidSetout (inst : Inst) (v : Word16) (s : State) : Result := writePid s inst fun c => { c with output := v }

/-- `PID.SETIN inst, v` (R147). -/
def execPidSetin (inst : Inst) (v : Word16) (s : State) : Result := writePid s inst fun c => { c with input := v }

/-- `PID.SETSP inst, v` (R148). -/
def execPidSetsp (inst : Inst) (v : Word16) (s : State) : Result := writePid s inst fun c => { c with setpoint := v }

/-- `PID.GETKP inst` (R149). -/
def execPidGetkp (inst : Inst) (s : State) : Result := readPid s inst fun c => c.kp

/-- `PID.GETKI inst` (R150). -/
def execPidGetki (inst : Inst) (s : State) : Result := readPid s inst fun c => c.ki

/-- `PID.GETKD inst` (R151). -/
def execPidGetkd (inst : Inst) (s : State) : Result := readPid s inst fun c => c.kd

/-- `PID.GETKW inst` (R152). -/
def execPidGetkw (inst : Inst) (s : State) : Result := readPid s inst fun c => c.kw

/-- `PID.GETOUT inst` (R153). -/
def execPidGetout (inst : Inst) (s : State) : Result := readPid s inst fun c => c.output

/-- `PID.GETIN inst` (R154). -/
def execPidGetin (inst : Inst) (s : State) : Result := readPid s inst fun c => c.input

/-- `PID.GETSP inst` (R155). -/
def execPidGetsp (inst : Inst) (s : State) : Result := readPid s inst fun c => c.setpoint

end Sys2Proof.Machine
end

