-- ==== Sys2Proof/Machine/PidCompute.lean ====
section
/-! DEFINITION. The control step of the PID controller: `PID.COMPUTE` (spec 43_pid_controller.md, section 3). Signed
cells are read by `sext` and every intermediate value is a mathematical integer that the primitives narrow. -/

namespace Sys2Proof.Machine

/-- Part A, `d_input` (R134). -/
def derivativeInput (c : Pid) (newInput : Word16) : Word16 := cell16 (sssub 16 (sext newInput) (sext c.lastInput))

/-- Part A, `error`: measured minus target (R134). -/
def controlError (newInput newSetpoint : Word16) : Word16 := cell16 (sssub 16 (sext newInput) (sext newSetpoint))

/-- Part B, `aw`: the anti-windup term from the previous step's `saturation_amount` (R135). -/
def antiWindup (c : Pid) : Int := gmul (sext c.kw) (sext c.saturationAmount)

/-- Part B, `integral_sum`: first the error is added, then the narrowed anti-windup term is subtracted, each at
`W_ISUM` bits (R135, D16). -/
def integralUpdate (w : IsumWidth) (c : Pid) (err : Word16) : Word32 :=
  cellSum (sssub w.bits (ssadd w.bits (sextSum c.integralSum) (sext err)) (sat w.bits (antiWindup c)))

/-- Part C, `pterm` (R136). -/
def pTerm (c : Pid) (err : Word16) : Int := gmul (sext c.kp) (sext err)

/-- Part C, `iterm`, from the accumulator after part B (R136). -/
def iTerm (c : Pid) (isum : Word32) : Int := gmul (sext c.ki) (sextSum isum)

/-- Part C, `dterm` (R136). -/
def dTerm (c : Pid) (dIn : Word16) : Int := gmul (sext c.kd) (sext dIn)

/-- Part D: the raw control signal by mode (R138). In MANUAL it is `output` before the step. -/
def rawSignal (m : Mode) (c : Pid) (err dIn : Word16) (isum : Word32) : Int :=
  match m with
  | .off => 0
  | .p => pTerm c err
  | .pi => ssadd 32 (iTerm c isum) (pTerm c err)
  | .pd => ssadd 32 (dTerm c dIn) (pTerm c err)
  | .pid => ssadd 32 (ssadd 32 (iTerm c isum) (pTerm c err)) (dTerm c dIn)
  | .manual => sext c.output

/-- Part E, `output`: the upper limit is tested first (R140, D18). -/
def clampedOutput (c : Pid) (raw : Int) : Word16 :=
  if sext c.maxLimit < raw then c.maxLimit else if raw < sext c.minLimit then c.minLimit else cell16 raw

/-- Part E, `saturation_amount`: the excess over the limit, narrowed by saturation (R140, D19). -/
def clampExcess (c : Pid) (raw : Int) : Word16 :=
  if sext c.maxLimit < raw then cell16 (sat 16 (raw - sext c.maxLimit))
  else if raw < sext c.minLimit then cell16 (sat 16 (raw - sext c.minLimit))
  else 0

/-- Parts A to F on one PID instance in mode `m` (R133); the updates of parts A, B, E and F are made in every
mode (R135, D26). -/
def computeStep (w : IsumWidth) (m : Mode) (c : Pid) (newInput newSetpoint : Word16) : Pid :=
  let dIn := derivativeInput c newInput
  let err := controlError newInput newSetpoint
  let isum := integralUpdate w c err
  let raw := rawSignal m c err dIn isum
  { c with input := newInput, setpoint := newSetpoint, dInput := dIn, error := err, integralSum := isum
           output := clampedOutput c raw, saturationAmount := clampExcess c raw, lastInput := newInput }

/-- `PID.COMPUTE inst, new_input, new_setpoint` (R133). A `mode` cell of 6 or 7 is the fatal illegal internal
state (R187). -/
def execPidCompute (inst : Inst) (newInput newSetpoint : Word16) (s : State) : Result :=
  onPid s inst <|
    match Mode.ofBits s.pid[inst].mode with
    | none => .fault (.illegalMode inst)
    | some m =>
      let c := computeStep s.cfg.wIsum m s.pid[inst] newInput newSetpoint
      .next ((s.setPid inst c).respond c.output)

end Sys2Proof.Machine
end

