-- ==== Sys2Proof/Machine/PidConfig.lean ====
section
/-! DEFINITION. The configuration commands of the PID controller: `PID.SETCFG`, `PID.SETMODE`
(spec 43_pid_controller.md, section 2). -/

namespace Sys2Proof.Machine

/-- `PID.SETCFG inst, mode, Kp, Ki, Kd, Kw, min, max` (R131): the whole configuration, and `integral_sum <- 0`. -/
def execPidSetcfg (inst : Inst) (mode : Mode) (kp ki kd kw minLimit maxLimit : Word16) (s : State) : Result :=
  writePid s inst fun c =>
    { c with mode := mode.toBits, kp := kp, ki := ki, kd := kd, kw := kw, minLimit := minLimit, maxLimit := maxLimit
             integralSum := 0 }

/-- `PID.SETMODE inst, mode` (R132): the mode, and `integral_sum <- 0`, whether or not the mode changes. -/
def execPidSetmode (inst : Inst) (mode : Mode) (s : State) : Result :=
  writePid s inst fun c => { c with mode := mode.toBits, integralSum := 0 }

end Sys2Proof.Machine
end

