-- ==== Sys2Proof/Machine/Quadrature.lean ====
section
/-! DEFINITION. The quadrature decoder: `ENC.STEP`, `ENC.RDTICK`, `ENC.RDERR`, `ENC.RDSTATE`
(spec 40_quadrature_decoder.md). -/

namespace Sys2Proof.Machine

/-- The edge step on one decoder: the three steps of R84, the counters wrapping (R13, R14). -/
def edgeStep (d : Decoder) (s : Pair) : Decoder :=
  match classify d.newState s with
  | .plus => { d with oldState := d.newState, newState := s, tickCount := d.tickCount + 1#16 }
  | .minus => { d with oldState := d.newState, newState := s, tickCount := d.tickCount - 1#16 }
  | .error => { d with oldState := d.newState, newState := s, errorCount := d.errorCount + 1#16 }

/-- `ENC.STEP i, s` (R84). It has no response and never fails. -/
def execEncStep (port : Channel) (sample : Pair) (s : State) : Result :=
  .next (s.setEnc port (edgeStep s.enc[port] sample))

/-- `ENC.RDTICK inst` (R86). -/
def execEncRdtick (inst : Inst) (s : State) : Result := readEnc s inst fun d => d.tickCount

/-- `ENC.RDERR inst` (R87). -/
def execEncRderr (inst : Inst) (s : State) : Result := readEnc s inst fun d => d.errorCount

/-- `ENC.RDSTATE inst` (R88). -/
def execEncRdstate (inst : Inst) (s : State) : Result := readEnc s inst packStates

end Sys2Proof.Machine
end

