-- ==== Sys2Proof/Machine/Speed.lean ====
section
/-! DEFINITION. The speed estimator: `SPD.DIFF`, `SPD.SAMPLE` (spec 41_speed_estimator.md). -/

namespace Sys2Proof.Machine

/-- `speed(new_count, old_count) = wrap_16(new_count - old_count)` (R101). -/
def speed (newCount oldCount : Word16) : Word16 := cell16 (sext newCount - sext oldCount)

/-- `SPD.DIFF new_count, old_count` (R102). -/
def execSpdDiff (newCount oldCount : Word16) (s : State) : Result := .next (s.respond (speed newCount oldCount))

/-- `SPD.SAMPLE inst` (R103). -/
def execSpdSample (inst : Inst) (s : State) : Result :=
  onChannel s inst fun i =>
    .next ((s.setPrev i s.enc[i].tickCount).respond (speed s.enc[i].tickCount s.spd[i].prevCount))

end Sys2Proof.Machine
end

