-- ==== Sys2Proof/Machine/Dispatch.lean ====
section
/-! DEFINITION. Which meaning each operation of the opcode table has. -/

namespace Sys2Proof.Machine

/-- The meaning of an operation: one atomic step of one agent (spec 00_scope.md R5, 20_memory.md R44). -/
def exec (i : Instr) (s : State) : Host.Outcome State Fault Refusal :=
  match i with
  | .encStep port sample => Sys2Proof.Machine.execEncStep port sample s
  | .encRdtick inst => Sys2Proof.Machine.execEncRdtick inst s
  | .encRderr inst => Sys2Proof.Machine.execEncRderr inst s
  | .encRdstate inst => Sys2Proof.Machine.execEncRdstate inst s
  | .spdDiff new old => Sys2Proof.Machine.execSpdDiff new old s
  | .spdSample inst => Sys2Proof.Machine.execSpdSample inst s
  | .pidSetcfg inst mode kp ki kd kw lo hi => Sys2Proof.Machine.execPidSetcfg inst mode kp ki kd kw lo hi s
  | .pidCompute inst x sp => Sys2Proof.Machine.execPidCompute inst x sp s
  | .pidSetmode inst mode => Sys2Proof.Machine.execPidSetmode inst mode s
  | .pidSetkp inst v => Sys2Proof.Machine.execPidSetkp inst v s
  | .pidSetki inst v => Sys2Proof.Machine.execPidSetki inst v s
  | .pidSetkd inst v => Sys2Proof.Machine.execPidSetkd inst v s
  | .pidSetkw inst v => Sys2Proof.Machine.execPidSetkw inst v s
  | .pidSetout inst v => Sys2Proof.Machine.execPidSetout inst v s
  | .pidSetin inst v => Sys2Proof.Machine.execPidSetin inst v s
  | .pidSetsp inst v => Sys2Proof.Machine.execPidSetsp inst v s
  | .pidGetkp inst => Sys2Proof.Machine.execPidGetkp inst s
  | .pidGetki inst => Sys2Proof.Machine.execPidGetki inst s
  | .pidGetkd inst => Sys2Proof.Machine.execPidGetkd inst s
  | .pidGetkw inst => Sys2Proof.Machine.execPidGetkw inst s
  | .pidGetout inst => Sys2Proof.Machine.execPidGetout inst s
  | .pidGetin inst => Sys2Proof.Machine.execPidGetin inst s
  | .pidGetsp inst => Sys2Proof.Machine.execPidGetsp inst s

end Sys2Proof.Machine
end

