-- ==== Sys2Proof/Machine/Cycle.lean ====
section
/-! DEFINITION. One clock cycle: what the pins present is executed in the order of spec 60_exceptions.md R191 (reset,
edge events, host command; R53). -/

namespace Sys2Proof.Machine

/-- Go on from the state an operation leaves; a stop stays a stop. -/
def thenRun (r : Result) (k : State → Result) : Result :=
  match r with
  | .next s => k s
  | .fault f => .fault f
  | .refused f => .refused f

/-- The event port of channel `i` in one cycle (R56). -/
def runEvent (i : Channel) (e : Option Pair) (s : State) : Result :=
  match e with
  | none => .next s
  | some ab => exec (.encStep i ab) s

/-- The command port in one cycle: the word is decoded and executed, or rejected (R57, R71, R184). -/
def runCommand (cmd : Option CmdWord) (s : State) : Result :=
  match cmd with
  | none => .next s
  | some cw =>
    match decode s.cfg cw with
    | .op i => exec i s
    | .reject r => .next (s.reject r)

/-- One clock cycle with pins `c`, from a state whose pins are taken (R191). Every cycle begins without a
response (R57); a cycle with `rst = 1` ignores everything else (R210). -/
def runCycle (c : Cycle) (s : State) : Result :=
  if c.rst then .next s.resetAll
  else
    thenRun (runEvent 0 c.evt[0] s.noResponse) fun s₁ =>
      thenRun (runEvent 1 c.evt[1] s₁) (runCommand c.cmd)

/-- The machine's step: the cycle about to execute (R55). -/
def cycleStep (s : State) : Result := runCycle s.pins s.takePins

/-- The cycle that presents a word of the opcode table, and nothing where the word is none (log 9). -/
def cycleOfTableWord (nbits w : Nat) : Cycle :=
  match PortWord.ofTableWord nbits w with
  | some pw => Cycle.ofPortWord pw
  | none => Cycle.idle

end Sys2Proof.Machine
end

