-- ==== Sys2Proof/Machine/Step.lean ====
section
/-! DEFINITION. The step function, one clock cycle (spec 60_exceptions.md R191), and how a word of the opcode table is
placed where the next step takes it (log 9). -/

namespace Sys2Proof.Machine

/-- One clock cycle of the machine. -/
def step (s : State) : Host.Outcome State Fault Refusal := cycleStep s

/-- `s` with the word `w` of the opcode table presented in the cycle about to execute. -/
def State.withFetchWord (s : State) (nbits w : Nat) : State := s.withPins (cycleOfTableWord nbits w)

end Sys2Proof.Machine
end

