-- ==== Sys2Proof/Safety.lean ====
section
/-! DEFINITION. The terms claims are stated in: the invariant of the machine, what an operation leaves unchanged,
sequences of operations, and independent forms of the spec's tables and formulas. -/

namespace Sys2Proof.Machine

/-! ## The invariant -/

/-- `mode` is in 0 to 5 (spec 10_state.md R36 a). -/
def legalMode (c : Pid) : Bool := (Mode.ofBits c.mode).isSome

/-- The accumulator is a signed value of `W_ISUM` bits (R30, log 4). -/
def sumFits (w : IsumWidth) (c : Pid) : Bool :=
  decide (minOf w.bits ≤ sextSum c.integralSum) && decide (sextSum c.integralSum ≤ maxOf w.bits)

/-- A slot of the PID file is a legal instance, or it is no instance and holds zeros (R20, log 5). -/
def pidSlotOk (g : Config) (p : Inst) (c : Pid) : Bool :=
  legalMode c && sumFits g.wIsum c && (pidInstOk g p || decide (c = Pid.reset))

/-- A response with a code other than OK carries the data 0 (R58). -/
def responseOk : Option Response → Bool
  | none => true
  | some r => decide (r.code = .ok) || decide (r.data = 0#16)

/-- The invariant: every PID slot is legal and the response is one R58 allows. -/
def State.Inv (s : State) : Prop := (∀ p : Inst, pidSlotOk s.cfg p s.pid[p] = true) ∧ responseOk s.rsp = true

/-! ## Frames -/

/-- Nothing but the response port changed. -/
def onlyResponse (s t : State) : Prop :=
  t.cfg = s.cfg ∧ t.enc = s.enc ∧ t.spd = s.spd ∧ t.pid = s.pid ∧ t.inputs = s.inputs

/-- Nothing but decoder `i` changed; the response port is as it was. -/
def onlyDecoder (i : Channel) (s t : State) : Prop :=
  t.cfg = s.cfg ∧ t.spd = s.spd ∧ t.pid = s.pid ∧ t.inputs = s.inputs ∧ t.rsp = s.rsp ∧
    ∀ j : Channel, j ≠ i → t.enc[j] = s.enc[j]

/-- Nothing but speed estimator `i` and the response port changed. -/
def onlyEstimator (i : Channel) (s t : State) : Prop :=
  t.cfg = s.cfg ∧ t.enc = s.enc ∧ t.pid = s.pid ∧ t.inputs = s.inputs ∧ ∀ j : Channel, j ≠ i → t.spd[j] = s.spd[j]

/-- Nothing but PID instance `p` and the response port changed. -/
def onlyPid (p : Inst) (s t : State) : Prop :=
  t.cfg = s.cfg ∧ t.enc = s.enc ∧ t.spd = s.spd ∧ t.inputs = s.inputs ∧ ∀ q : Inst, q ≠ p → t.pid[q] = s.pid[q]

/-- The response port holds `(0, data)`. -/
def answers (t : State) (data : Word16) : Prop := t.rsp = some { code := .ok, data := data }

/-- The cells of a PID instance (R20). -/
inductive PidCell where
  | mode | kp | ki | kd | kw | minLimit | maxLimit | input | setpoint | output | error | lastInput | dInput
  | integralSum | saturationAmount
deriving DecidableEq, Repr

/-- The value of a cell. -/
def Pid.cell (c : Pid) : PidCell → Int
  | .mode => c.mode.toNat
  | .kp => sext c.kp
  | .ki => sext c.ki
  | .kd => sext c.kd
  | .kw => sext c.kw
  | .minLimit => sext c.minLimit
  | .maxLimit => sext c.maxLimit
  | .input => sext c.input
  | .setpoint => sext c.setpoint
  | .output => sext c.output
  | .error => sext c.error
  | .lastInput => sext c.lastInput
  | .dInput => sext c.dInput
  | .integralSum => sextSum c.integralSum
  | .saturationAmount => sext c.saturationAmount

/-- The cells an operation may write, the "written by" column of R20's table; the instance it writes them on. -/
def pidWrites : Instr → Option (Inst × List PidCell)
  | .pidSetcfg n _ _ _ _ _ _ _ => some (n, [.mode, .kp, .ki, .kd, .kw, .minLimit, .maxLimit, .integralSum])
  | .pidSetmode n _ => some (n, [.mode, .integralSum])
  | .pidCompute n _ _ =>
    some (n, [.input, .setpoint, .output, .error, .lastInput, .dInput, .integralSum, .saturationAmount])
  | .pidSetkp n _ => some (n, [.kp])
  | .pidSetki n _ => some (n, [.ki])
  | .pidSetkd n _ => some (n, [.kd])
  | .pidSetkw n _ => some (n, [.kw])
  | .pidSetout n _ => some (n, [.output])
  | .pidSetin n _ => some (n, [.input])
  | .pidSetsp n _ => some (n, [.setpoint])
  | _ => none

/-- The operation may write the cell of PID instance `p` (R20). -/
def mayWrite (p : Inst) (cell : PidCell) (i : Instr) : Bool :=
  match pidWrites i with
  | none => false
  | some (n, cells) => decide (n = p) && decide (cell ∈ cells)

/-- The PID instance a `PID.*` command names. -/
def pidOperand : Instr → Option Inst
  | .pidSetcfg n _ _ _ _ _ _ _ => some n
  | .pidCompute n _ _ => some n
  | .pidSetmode n _ => some n
  | .pidSetkp n _ => some n
  | .pidSetki n _ => some n
  | .pidSetkd n _ => some n
  | .pidSetkw n _ => some n
  | .pidSetout n _ => some n
  | .pidSetin n _ => some n
  | .pidSetsp n _ => some n
  | .pidGetkp n => some n
  | .pidGetki n => some n
  | .pidGetkd n => some n
  | .pidGetkw n => some n
  | .pidGetout n => some n
  | .pidGetin n => some n
  | .pidGetsp n => some n
  | _ => none

/-- The operation is an edge step, the only one the edge agents execute (R5). -/
def isEdgeStep : Instr → Bool
  | .encStep _ _ => true
  | _ => false

/-! ## Sequences -/

/-- The operations of a sequence one after another (R49). -/
def runOps : List Instr → State → Result
  | [], s => .next s
  | i :: is, s => thenRun (exec i s) (runOps is)

/-- The edge steps of channel `i` for a sequence of samples. -/
def edgeSteps (i : Channel) (samples : List Pair) : List Instr := samples.map fun ab => .encStep i ab

/-- What one operation contributes to the sum of the values `SPD.SAMPLE n` returns (R103). -/
def sampleValue (n : Inst) (i : Instr) (t : State) : Int :=
  match i, t.rsp with
  | .spdSample m, some r => if m = n then sext r.data else 0
  | _, _ => 0

/-- The sum of the values `SPD.SAMPLE n` returns along a sequence of operations (R103). -/
def sampleSum (n : Inst) : List Instr → State → Int
  | [], _ => 0
  | i :: is, s =>
    match exec i s with
    | .next t => sampleValue n i t + sampleSum n is t
    | _ => 0

/-! ## Independent forms of the spec's tables and formulas -/

/-- `wrap_16` (R7). -/
def wrap16 (x : Int) : Int := Int.bmod x 65536

/-- `PLUS[{a, b}] = {not b, a}` (R81). -/
def nextClockwise (q : Pair) : Pair := (~~~(q.extractLsb' 0 1)) ++ (q.extractLsb' 1 1)

/-- `MINUS[{a, b}] = {b, not a}` (R81). -/
def nextCounterClockwise (q : Pair) : Pair := (q.extractLsb' 0 1) ++ (~~~(q.extractLsb' 1 1))

/-- The equivalent form of R85: what a step adds to `tick_count`, from `x = before XOR s`. -/
def tickDelta (before s : Pair) : Int :=
  if before ^^^ s = 0b10#2 then (if before.getLsbD 1 = before.getLsbD 0 then 1 else -1)
  else if before ^^^ s = 0b01#2 then (if before.getLsbD 1 ≠ before.getLsbD 0 then 1 else -1)
  else 0

/-- The equivalent form of R85: the step is an error. -/
def sequenceError (before s : Pair) : Bool := decide (before ^^^ s = 0b00#2) || decide (before ^^^ s = 0b11#2)

/-- The first `n` samples of the clockwise cycle after `q` (R90). -/
def clockwiseFrom (q : Pair) : Nat → List Pair
  | 0 => []
  | n + 1 => nextClockwise q :: clockwiseFrom (nextClockwise q) n

/-- The first `n` samples of the counter-clockwise cycle after `q` (R90). -/
def counterClockwiseFrom (q : Pair) : Nat → List Pair
  | 0 => []
  | n + 1 => nextCounterClockwise q :: counterClockwiseFrom (nextCounterClockwise q) n

/-- `(+1 steps) - (-1 steps)` over a sequence of samples after `q` (R15). -/
def netTicks (q : Pair) : List Pair → Int
  | [] => 0
  | s :: ss => tickDelta q s + netTicks s ss

/-- The number of error steps over a sequence of samples after `q` (R15). -/
def errorSteps (q : Pair) : List Pair → Nat
  | [] => 0
  | s :: ss => (if sequenceError q s then 1 else 0) + errorSteps s ss

/-- A value limited to the signed range of `n` bits, by cases (R110). -/
def limitTo (n : Nat) (x : Int) : Int :=
  if x > 2 ^ (n - 1) - 1 then 2 ^ (n - 1) - 1 else if x < -(2 ^ (n - 1)) then -(2 ^ (n - 1)) else x

/-- `K × v / 1024` on mathematical integers, rounded toward zero (R115, R116). -/
def scaled (k v : Int) : Int := Int.tdiv (k * v) 1024

/-- The same with the product limited to 32 bits first, which matters only for a 32-bit accumulator (R115). -/
def scaledWide (k v : Int) : Int := Int.tdiv (limitTo 32 (k * v)) 1024

/-- The clamp of part E, upper limit first (R140). -/
def clampTo (lo hi raw : Int) : Int := if raw > hi then hi else if raw < lo then lo else raw

/-- The excess of part E before narrowing (R140). -/
def excessOf (lo hi raw : Int) : Int := if raw > hi then raw - hi else if raw < lo then raw - lo else 0

/-- The raw control signal as the exact sum of the terms the mode uses (R138, R139). -/
def exactRaw (m : Mode) (c : Pid) (err dIn isum : Int) : Int :=
  match m with
  | .off => 0
  | .p => scaled (sext c.kp) err
  | .pi => scaledWide (sext c.ki) isum + scaled (sext c.kp) err
  | .pd => scaled (sext c.kd) dIn + scaled (sext c.kp) err
  | .pid => scaledWide (sext c.ki) isum + scaled (sext c.kp) err + scaled (sext c.kd) dIn
  | .manual => sext c.output

/-- What a compute records of its clamp (R36 b). -/
def clampRecorded (c : Pid) : Prop :=
  (sext c.minLimit ≤ sext c.maxLimit → sext c.minLimit ≤ sext c.output ∧ sext c.output ≤ sext c.maxLimit) ∧
    (clampOf c = .high → c.output = c.maxLimit) ∧ (clampOf c = .low → c.output = c.minLimit)

/-! ## The rows of the opcode table (spec/opcode_table.json, R72) -/

/-- A row's `mask`. -/
def formatMask : Format → CmdWord
  | .n => 0xF9FFFFFFFFFFFFFFFFFFFFFFFFFF#112
  | .m => 0xF83FFFFFFFFFFFFFFFFFFFFFFFFF#112
  | .v => 0xF9FF0000FFFFFFFFFFFFFFFFFFFF#112
  | .d => 0xFFFF00000000FFFFFFFFFFFFFFFF#112
  | .c => 0xF9FF00000000FFFFFFFFFFFFFFFF#112
  | .g => 0xF83F000000000000000000000000#112

/-- A row's `match`. -/
def rowMatch : Opcode → CmdWord
  | .encRdtick => 0x0800000000000000000000000000#112
  | .encRderr => 0x1000000000000000000000000000#112
  | .encRdstate => 0x1800000000000000000000000000#112
  | .spdDiff => 0x2000000000000000000000000000#112
  | .spdSample => 0x2800000000000000000000000000#112
  | .pidSetcfg => 0x4000000000000000000000000000#112
  | .pidCompute => 0x4800000000000000000000000000#112
  | .pidSetmode => 0x5000000000000000000000000000#112
  | .pidSetkp => 0x8000000000000000000000000000#112
  | .pidSetki => 0x8800000000000000000000000000#112
  | .pidSetkd => 0x9000000000000000000000000000#112
  | .pidSetkw => 0x9800000000000000000000000000#112
  | .pidSetout => 0xA000000000000000000000000000#112
  | .pidSetin => 0xA800000000000000000000000000#112
  | .pidSetsp => 0xB000000000000000000000000000#112
  | .pidGetkp => 0xC000000000000000000000000000#112
  | .pidGetki => 0xC800000000000000000000000000#112
  | .pidGetkd => 0xD000000000000000000000000000#112
  | .pidGetkw => 0xD800000000000000000000000000#112
  | .pidGetout => 0xE000000000000000000000000000#112
  | .pidGetin => 0xE800000000000000000000000000#112
  | .pidGetsp => 0xF000000000000000000000000000#112

/-- The "Encoding" and "Exceptions" clauses of an operation's rule, for a format without `mode` (R60, R61, R71): how
a word with opcode number `op` decodes, `limit` being the instance count the operation is checked against. -/
def decodesBy (c : Config) (op : Nat) (o : Opcode) (limit : Nat) (mk : Fields → Instr) : Prop :=
  ∀ cw : CmdWord, (cw.extractLsb' 107 5).toNat = op →
    decode c cw =
      if limit ≤ (cw.extractLsb' 105 2).toNat then .reject .badInst
      else if cw &&& formatMask o.format = rowMatch o then .op (mk (Fields.ofWord cw)) else .reject .badField

/-- The same clauses for the two formats with a `mode` field (R61, R66). -/
def decodesByMode (c : Config) (op : Nat) (o : Opcode) (mk : Fields → Mode → Instr) : Prop :=
  ∀ cw : CmdWord, (cw.extractLsb' 107 5).toNat = op →
    (c.nPid.toNat ≤ (cw.extractLsb' 105 2).toNat → decode c cw = .reject .badInst) ∧
    ((cw.extractLsb' 105 2).toNat < c.nPid.toNat →
      (cw &&& formatMask o.format ≠ rowMatch o ∨ 6 ≤ (cw.extractLsb' 102 3).toNat → decode c cw = .reject .badField) ∧
      (∀ m : Mode, cw &&& formatMask o.format = rowMatch o → cw.extractLsb' 102 3 = m.toBits →
        decode c cw = .op (mk (Fields.ofWord cw) m)))

/-- The opcode of a host command; none for the edge step (R60). -/
def opcodeOf : Instr → Option Opcode
  | .encStep _ _ => none
  | .encRdtick _ => some .encRdtick
  | .encRderr _ => some .encRderr
  | .encRdstate _ => some .encRdstate
  | .spdDiff _ _ => some .spdDiff
  | .spdSample _ => some .spdSample
  | .pidSetcfg _ _ _ _ _ _ _ _ => some .pidSetcfg
  | .pidCompute _ _ _ => some .pidCompute
  | .pidSetmode _ _ => some .pidSetmode
  | .pidSetkp _ _ => some .pidSetkp
  | .pidSetki _ _ => some .pidSetki
  | .pidSetkd _ _ => some .pidSetkd
  | .pidSetkw _ _ => some .pidSetkw
  | .pidSetout _ _ => some .pidSetout
  | .pidSetin _ _ => some .pidSetin
  | .pidSetsp _ _ => some .pidSetsp
  | .pidGetkp _ => some .pidGetkp
  | .pidGetki _ => some .pidGetki
  | .pidGetkd _ => some .pidGetkd
  | .pidGetkw _ => some .pidGetkw
  | .pidGetout _ => some .pidGetout
  | .pidGetin _ => some .pidGetin
  | .pidGetsp _ => some .pidGetsp

end Sys2Proof.Machine
end

