-- ==== Sys2Proof/Certificates/Slice0/Obligations.lean ====
section
/-! DEFINITION. The statements for the provers, from the numbered rules of spec/. -/

open Sys2Proof Sys2Proof.Machine

/-! ## Encoding -/

/-- R59 to R62, R71: decoding the words of an operation that exists gives the operation back, with every operand at
every value, for every value of the parameters. -/
def Obligations.DecodeOfEncodedOperation : Prop :=
  ∀ (c : Config) (i : Instr), i.wf c = true → decodePort c (encode i) = .op i

/-- R63, R67, R71: a command word that decodes to an operation is that operation's one word, and the operation
exists: no bit of a command word is ignored. -/
def Obligations.AcceptedWordIsTheEncoding : Prop :=
  ∀ (c : Config) (cw : CmdWord) (i : Instr), decode c cw = .op i → encode i = .command cw ∧ i.wf c = true

/-- R72 with the rows of spec/opcode_table.json (an inference the spec marks as derived): a word decodes to an
operation of a row exactly when it has the row's shape, its instance is in range and a `mode` the format uses is
below 6. -/
def Obligations.AcceptedWordsAreTheTableRows : Prop :=
  ∀ (c : Config) (cw : CmdWord) (o : Opcode),
    (∃ i, decode c cw = .op i ∧ opcodeOf i = some o) ↔
      (cw &&& formatMask o.format = rowMatch o ∧ o.instOk c (Fields.ofWord cw).instIdx = true ∧
        (o.format.usesMode = true → (cw.extractLsb' 102 3).toNat < 6))

/-- R64 (decision D9 of the spec): the reserved opcodes are exactly the ten listed; a word with one is rejected with
code 1 whatever its other fields hold, and the cycle that presents it changes no state; the all-zero word is one of
them. -/
def Obligations.ReservedOpcodesAreRejected : Prop :=
  (∀ (c : Config) (cw : CmdWord),
    decode c cw = .reject .reservedOp ↔
      (cw.extractLsb' 107 5).toNat ∈ [0x00, 0x06, 0x07, 0x0B, 0x0C, 0x0D, 0x0E, 0x0F, 0x17, 0x1F]) ∧
  (∀ (s : State) (cw : CmdWord), s.pins = Cycle.ofCommand cw →
    (cw.extractLsb' 107 5).toNat ∈ [0x00, 0x06, 0x07, 0x0B, 0x0C, 0x0D, 0x0E, 0x0F, 0x17, 0x1F] →
    step s = .next { s.takePins with rsp := some { code := .reservedOp, data := 0 } }) ∧
  (∀ c : Config, decode c 0#112 = .reject .reservedOp)

/-- R65 (decision D9 of the spec): `inst` is checked against `N_ENC` for `ENC.RD*` and `SPD.SAMPLE` and against
`N_PID` for `PID.*`, and a reserved value is rejected with code 2; for `SPD.DIFF` a nonzero `inst` is code 3. -/
def Obligations.ReservedInstancesAreRejected : Prop :=
  ∀ (c : Config) (cw : CmdWord),
    ((cw.extractLsb' 107 5).toNat ∈ [0x01, 0x02, 0x03, 0x05] →
      (decode c cw = .reject .badInst ↔ 2 ≤ (cw.extractLsb' 105 2).toNat)) ∧
    ((cw.extractLsb' 107 5).toNat ∈
        [0x08, 0x09, 0x0A, 0x10, 0x11, 0x12, 0x13, 0x14, 0x15, 0x16, 0x18, 0x19, 0x1A, 0x1B, 0x1C, 0x1D, 0x1E] →
      (decode c cw = .reject .badInst ↔ c.nPid.toNat ≤ (cw.extractLsb' 105 2).toNat)) ∧
    ((cw.extractLsb' 107 5).toNat = 0x04 →
      decode c cw ≠ .reject .badInst ∧ (cw.extractLsb' 105 2 ≠ 0#2 → decode c cw = .reject .badField))

/-- R66 (decision D9 of the spec): in `PID.SETCFG` and `PID.SETMODE`, for an instance that exists (R185), `mode` 6
and 7 are rejected with code 3, the cycle that presents such a word leaves every field as it was, and no step makes
a legal mode cell illegal. -/
def Obligations.ReservedModesAreRejected : Prop :=
  (∀ (s : State) (cw : CmdWord), s.pins = Cycle.ofCommand cw →
    (cw.extractLsb' 107 5).toNat ∈ [0x08, 0x0A] → (cw.extractLsb' 105 2).toNat < s.cfg.nPid.toNat →
    6 ≤ (cw.extractLsb' 102 3).toNat →
    decode s.cfg cw = .reject .badField ∧
      step s = .next { s.takePins with rsp := some { code := .badField, data := 0 } }) ∧
  (∀ (s t : State) (p : Inst), s.pid[p].mode.toNat < 6 → step s = .next t → t.pid[p].mode.toNat < 6)

/-- R63 with the masks of R61 (decision D9 of the spec): a word whose opcode and instance are good (R185) and that
has a bit set in `rsv` or in a field its format does not use, is rejected with code 3, and the cycle that presents
it changes no state. -/
def Obligations.NonzeroUnusedFieldIsRejected : Prop :=
  ∀ (o : Opcode) (cw : CmdWord), cw.extractLsb' 107 5 = o.toBits → cw &&& formatMask o.format ≠ rowMatch o →
    (∀ c : Config, o.instOk c (Fields.ofWord cw).instIdx = true → decode c cw = .reject .badField) ∧
    (∀ s : State, o.instOk s.cfg (Fields.ofWord cw).instIdx = true → s.pins = Cycle.ofCommand cw →
      step s = .next { s.takePins with rsp := some { code := .badField, data := 0 } })

/-- R185 (decision D9 of the spec): which code one word reports when several causes apply: the lowest; an edge step
reports nothing. -/
def Obligations.RejectionReportsTheLowestCode : Prop :=
  (∀ (c : Config) (cw : CmdWord),
    (decode c cw = .reject .reservedOp ↔ Opcode.ofBits (cw.extractLsb' 107 5) = none) ∧
    (decode c cw = .reject .badInst ↔
      ∃ o, Opcode.ofBits (cw.extractLsb' 107 5) = some o ∧ o.instOk c (Fields.ofWord cw).instIdx = false) ∧
    (decode c cw = .reject .badField ↔
      ∃ o, Opcode.ofBits (cw.extractLsb' 107 5) = some o ∧ o.instOk c (Fields.ofWord cw).instIdx = true ∧
        (cw &&& formatMask o.format ≠ rowMatch o ∨ o.format.usesMode = true ∧ 6 ≤ (cw.extractLsb' 102 3).toNat))) ∧
  (∀ (i : Channel) (ab : Pair) (s t : State), exec (.encStep i ab) s = .next t → t.rsp = s.rsp)

/-- R70 (an inference the spec marks as derived): the worked encodings of the spec, written out, decode to their
operations. -/
def Obligations.WorkedWordsDecode : Prop :=
  decode Config.thisHardware 0x4040_0400_0000_0000_0000_FF01_00FF#112 =
      .op (.pidSetcfg 0 .p 1024 0 0 0 (-255) 255) ∧
    decode Config.thisHardware 0x4800_01F4_0000_0000_0000_0000_0000#112 = .op (.pidCompute 0 500 0) ∧
    decode Config.thisHardware 0x0A00_0000_0000_0000_0000_0000_0000#112 = .op (.encRdtick 1) ∧
    decode Config.thisHardware 0x2000_8000_7FFF_0000_0000_0000_0000#112 = .op (.spdDiff (-32768) 32767)

/-- R47 (decision D8 of the spec): a command word stored as bytes is 14 bytes, byte `k` holding `CW` from bit `8 (13
- k)` up, and reading the bytes back gives the word. -/
def Obligations.CommandWordsAreStoredBigEndian : Prop :=
  ∀ cw : CmdWord, (toBytes cw).length = 14 ∧
    (∀ k, k < 14 → (toBytes cw)[k]? = some (cw.extractLsb' (8 * (13 - k)) 8)) ∧ ofBytes (toBytes cw) = some cw

/-! ## The clock cycle -/

/-- A step runs the decoded operation (R56, R57): a cycle that presents one command word that decodes to `i`, or one
edge event, is `exec` of that operation on the state with the cycle's pins taken and no response yet. That a step is
one clock cycle is the model's choice (log 7). -/
def Obligations.StepRunsThePresentedOperation : Prop :=
  (∀ (s : State) (cw : CmdWord) (i : Instr), s.pins = Cycle.ofCommand cw → decode s.cfg cw = .op i →
    step s = exec i s.takePins.noResponse) ∧
  (∀ (s : State) (i : Channel) (ab : Pair), s.pins = Cycle.ofEvent i ab →
    step s = exec (.encStep i ab) s.takePins.noResponse)

/-- R184 (decision D9 of the spec): a cycle that presents a word that is no operation changes no state and answers
`(code, 0)` with the code of the rejection. -/
def Obligations.RejectedWordChangesNothing : Prop :=
  ∀ (s : State) (cw : CmdWord) (r : Rejection), s.pins = Cycle.ofCommand cw → decode s.cfg cw = .reject r →
    ∃ t, step s = .next t ∧ onlyResponse s.takePins t ∧
      t.rsp = some { data := 0, code := match r with
        | .reservedOp => .reservedOp
        | .badInst => .badInst
        | .badField => .badField }

/-- R210, R211 (decisions D1 and D21 of the spec): in a cycle with `rst = 1` every field takes its reset value,
zero, whatever it held; the events and the command of the cycle are ignored; there is no response. -/
def Obligations.ResetCycleClearsEveryField : Prop :=
  ∀ s : State, s.pins.rst = true →
    ∃ t, step s = .next t ∧ t.rsp = none ∧ t.cfg = s.cfg ∧ t.inputs = s.inputs.tail ∧
      (∀ i : Channel, t.enc[i] = { oldState := 0, newState := 0, tickCount := 0, errorCount := 0 } ∧
        t.spd[i].prevCount = 0) ∧
      (∀ (p : Inst) (cell : PidCell), t.pid[p].cell cell = 0)

/-- R57 (decision D6 of the spec): a cycle in which nothing is presented changes nothing and has no response. -/
def Obligations.IdleCycleChangesNothing : Prop :=
  ∀ s : State, s.pins = Cycle.idle → step s = .next { s with inputs := s.inputs.tail, rsp := none }

/-- R53, R191, R49 (decision D5 of the spec): a cycle without reset is the sequence of its operations, the edge
steps first, in either order of the channels, and the host command last: it leaves what three cycles leave that
present them one by one. -/
def Obligations.CycleIsTheSequenceOfItsOperations : Prop :=
  ∀ (s : State) (e0 e1 : Option Pair) (cmd : Option CmdWord) (rest : List Cycle),
    s.inputs = { rst := false, evt := #v[e0, e1], cmd := cmd } :: rest →
    step s = Host.Core.run Sys2Proof.core 3
        { s with inputs := { rst := false, evt := #v[e0, none], cmd := none } ::
                           { rst := false, evt := #v[none, e1], cmd := none } ::
                           { rst := false, evt := #v[none, none], cmd := cmd } :: rest } ∧
      step s = Host.Core.run Sys2Proof.core 3
        { s with inputs := { rst := false, evt := #v[none, e1], cmd := none } ::
                           { rst := false, evt := #v[e0, none], cmd := none } ::
                           { rst := false, evt := #v[none, none], cmd := cmd } :: rest }

/-- R46, R189: an edge event that is presented executes in its cycle, whatever the host does in it, and without an
event a decoder keeps its cells: no command delays, masks or blocks an edge step, and none writes a decoder. -/
def Obligations.EdgeEventsExecuteWhateverTheHostDoes : Prop :=
  ∀ (s t : State) (i : Channel), s.pins.rst = false → step s = .next t →
    (∀ ab, s.pins.evt[i] = some ab → ∃ u, exec (.encStep i ab) s = .next u ∧ t.enc[i] = u.enc[i]) ∧
      (s.pins.evt[i] = none → t.enc[i] = s.enc[i])

/-- The parameters of R6 are fixed and every cycle takes exactly its own pins (R35, R57): no step writes the
parameters or what the environment presents next. That both stand in State is the model's choice (logs 1 and 3). -/
def Obligations.StepKeepsParametersAndTakesOneCycle : Prop :=
  ∀ s t : State, step s = .next t → t.cfg = s.cfg ∧ t.inputs = s.inputs.tail

/-- R211, R36: the invariant holds right after reset, for every value of the parameters. -/
def Obligations.ResetStateIsLegal : Prop := State.reset.Inv ∧ ∀ c : Config, (State.resetWith c).Inv

/-- R36 (a), R21, R30, R58 (R36 is an inference the spec marks as derived): every step keeps the invariant: the mode
cells stay legal, the accumulators stay signed values of `W_ISUM` bits (log 4), the absent instances stay zero (log
5) and a rejection answers no data. -/
def Obligations.EveryStepKeepsTheStateLegal : Prop :=
  ∀ s t : State, s.Inv → step s = .next t → t.Inv

/-- R232, R187, U4 (R232 is an inference the spec marks as derived): from a state with legal modes every cycle has a
next state, whatever the pins present: the hardware never halts, and the fatal class is unreachable. -/
def Obligations.LegalMachineNeverStops : Prop :=
  ∀ s : State, s.Inv → ∃ t, step s = .next t

/-- R187: no step is ever refused, and the only fault is a `PID.COMPUTE` on an instance whose mode cell holds 6 or
7, presented in a cycle without reset (that this stop is a fault is one of the rule's two choices, log 11). -/
def Obligations.OnlyAnIllegalModeFaults : Prop :=
  ∀ s : State, (∀ r, step s ≠ .refused r) ∧
    ∀ f, step s = .fault f → ∃ (p : Inst) (x sp : Word16) (cw : CmdWord), f = .illegalMode p ∧
      6 ≤ s.pid[p].mode.toNat ∧ s.pins.rst = false ∧ s.pins.cmd = some cw ∧ decode s.cfg cw = .op (.pidCompute p x sp)

/-! ## The quadrature decoder -/

/-- R84 with the equivalent form of R85 (the wraps are R13's and R14's, decisions D10 and D11 of the spec): the edge
step has a next state in every state; it moves the pair, changes `tick_count` by +1, -1 or 0 as the pair tells,
`error_count` by 1 exactly on an error, and nothing else. -/
def Obligations.EdgeStepMovesThePairAndOneCounter : Prop :=
  ∀ (i : Channel) (ab : Pair) (s : State),
    ∃ t, exec (.encStep i ab) s = .next t ∧ onlyDecoder i s t ∧
      t.enc[i].oldState = s.enc[i].newState ∧ t.enc[i].newState = ab ∧
      t.enc[i].tickCount.toInt = wrap16 (s.enc[i].tickCount.toInt + tickDelta s.enc[i].newState ab) ∧
      t.enc[i].errorCount.toNat =
        (s.enc[i].errorCount.toNat + (if sequenceError s.enc[i].newState ab then 1 else 0)) % 65536

/-- R81: the two legal successors of a 2-bit state, in the closed forms of the table: `MINUS[x] = y` exactly when
`PLUS[y] = x`; and the step counts up to the one, down to the other. -/
def Obligations.LegalSuccessorsFormTheTwoCycles : Prop :=
  (∀ x y : Pair, nextCounterClockwise x = y ↔ nextClockwise y = x) ∧
    ∀ (i : Channel) (s : State), ∃ t u, exec (.encStep i (nextClockwise s.enc[i].newState)) s = .next t ∧
      exec (.encStep i (nextCounterClockwise s.enc[i].newState)) s = .next u ∧
      t.enc[i].tickCount = s.enc[i].tickCount + 1 ∧ u.enc[i].tickCount = s.enc[i].tickCount - 1 ∧
      t.enc[i].errorCount = s.enc[i].errorCount ∧ u.enc[i].errorCount = s.enc[i].errorCount

/-- R90, property P1 with the overflow of C6 (an inference the spec marks as derived): `n` clockwise steps from any
state count up by `n` (modulo 2^16), `n` counter-clockwise steps count down by `n`, and neither records an error. -/
def Obligations.CyclesCountOneTickPerStep : Prop :=
  ∀ (i : Channel) (n : Nat) (s : State),
    (∃ t, runOps (edgeSteps i (clockwiseFrom s.enc[i].newState n)) s = .next t ∧
      t.enc[i].tickCount.toInt = wrap16 (s.enc[i].tickCount.toInt + n) ∧
      t.enc[i].errorCount = s.enc[i].errorCount) ∧
    (∃ t, runOps (edgeSteps i (counterClockwiseFrom s.enc[i].newState n)) s = .next t ∧
      t.enc[i].tickCount.toInt = wrap16 (s.enc[i].tickCount.toInt - n) ∧
      t.enc[i].errorCount = s.enc[i].errorCount)

/-- R91, property P2 (an inference the spec marks as derived): a sample that is neither legal successor leaves
`tick_count` and adds one to `error_count`. -/
def Obligations.IllegalTransitionCountsOneError : Prop :=
  ∀ (i : Channel) (ab : Pair) (s : State), ab ≠ nextClockwise s.enc[i].newState →
    ab ≠ nextCounterClockwise s.enc[i].newState →
    ∃ t, exec (.encStep i ab) s = .next t ∧ t.enc[i].tickCount = s.enc[i].tickCount ∧
      t.enc[i].errorCount = s.enc[i].errorCount + 1 ∧ t.enc[i].newState = ab

/-- R15 and R89 c (inferences the spec marks as derived): after any sequence of samples from any state `tick_count`
has moved by the +1 steps less the -1 steps and `error_count` by the error steps, each modulo 2^16, and nothing but
the decoder has changed. -/
def Obligations.CountersSumTheTransitions : Prop :=
  ∀ (i : Channel) (samples : List Pair) (s : State),
    ∃ t, runOps (edgeSteps i samples) s = .next t ∧ onlyDecoder i s t ∧
      t.enc[i].tickCount.toInt = wrap16 (s.enc[i].tickCount.toInt + netTicks s.enc[i].newState samples) ∧
      t.enc[i].errorCount.toNat = (s.enc[i].errorCount.toNat + errorSteps s.enc[i].newState samples) % 65536

/-- R11: `old_state` is the previous value of `new_state`: the edge step copies it; no other operation, and no edge
step of the other channel, writes it; its reset value is `00`. -/
def Obligations.OldStateIsThePreviousNewState : Prop :=
  (∀ (i : Channel) (ab : Pair) (s : State), ∃ t, exec (.encStep i ab) s = .next t ∧
    t.enc[i].oldState = s.enc[i].newState) ∧
  (∀ (op : Instr) (i : Channel) (s t : State), (∀ ab, op ≠ .encStep i ab) → exec op s = .next t →
    t.enc[i].oldState = s.enc[i].oldState) ∧
  ∀ (c : Config) (i : Channel), (State.resetWith c).enc[i].oldState = 0b00#2

/-- R37, R10 to R14: no host command writes a decoder cell, and the edge step of a channel writes nothing but that
channel's decoder. -/
def Obligations.OnlyEdgeStepsWriteDecoders : Prop :=
  ∀ (i : Instr) (s t : State), exec i s = .next t →
    (isEdgeStep i = false → t.enc = s.enc) ∧ (∀ ch ab, i = .encStep ch ab → onlyDecoder ch s t)

/-- R86, R87, R88: the three reads have the opcodes 1, 2 and 3, rejected with code 2 or 3 as the rules say; they
answer the whole cell (for the pair, `old_state` in bits 3:2 and `new_state` in bits 1:0 of a value below 16) and
change nothing. -/
def Obligations.DecoderReadsAnswerTheCells : Prop :=
  (∀ c : Config, decodesBy c 0x01 .encRdtick 2 (fun f => .encRdtick f.instIdx) ∧
    decodesBy c 0x02 .encRderr 2 (fun f => .encRderr f.instIdx) ∧
    decodesBy c 0x03 .encRdstate 2 (fun f => .encRdstate f.instIdx)) ∧
  ∀ (i : Channel) (n : Inst) (s : State), n.val = i.val →
    (∃ t, exec (.encRdtick n) s = .next t ∧ onlyResponse s t ∧ answers t s.enc[i].tickCount) ∧
    (∃ t, exec (.encRderr n) s = .next t ∧ onlyResponse s t ∧ answers t s.enc[i].errorCount) ∧
    (∃ t v, exec (.encRdstate n) s = .next t ∧ onlyResponse s t ∧ answers t v ∧
      v.extractLsb' 2 2 = s.enc[i].oldState ∧ v.extractLsb' 0 2 = s.enc[i].newState ∧ v.toNat < 16)

/-! ## The speed estimator -/

/-- R102: a word with opcode 4 is `SPD.DIFF` of its first two values, or is rejected with code 3 where any other
field is nonzero; the operation answers `wrap_16(new_count - old_count)` and changes nothing. -/
def Obligations.SpeedDiffAnswersTheModularDifference : Prop :=
  (∀ c : Config, decodesBy c 0x04 .spdDiff 4 fun f => .spdDiff f.a0 f.a1) ∧
  ∀ (new old : Word16) (s : State),
    ∃ t v, exec (.spdDiff new old) s = .next t ∧ onlyResponse s t ∧ answers t v ∧
      v.toInt = wrap16 (new.toInt - old.toInt)

/-- R101 (decision D12 of the spec): the speed is the difference wrapped to 16 bits; if the count moved by `d`
between the two snapshots, wrapping as it may, the speed is `d` reduced modulo 2^16, and `d` itself when `-32768 <=
d <= 32767`. -/
def Obligations.SpeedIsExactAcrossAWrap : Prop :=
  (∀ new old : Word16, (speed new old).toInt = wrap16 (new.toInt - old.toInt)) ∧
  ∀ (c new : Word16) (d : Int), new.toInt = wrap16 (c.toInt + d) →
    (speed new c).toInt = wrap16 d ∧ (-32768 ≤ d → d ≤ 32767 → (speed new c).toInt = d)

/-- R103 (decision D13 of the spec): a word with opcode 5 is `SPD.SAMPLE`, rejected with code 2 or 3 as the rule
says; the operation answers the difference of the live counter and the previous snapshot, keeps the new snapshot,
and changes nothing else. -/
def Obligations.SpeedSampleKeepsTheSnapshot : Prop :=
  (∀ c : Config, decodesBy c 0x05 .spdSample 2 fun f => .spdSample f.instIdx) ∧
  ∀ (i : Channel) (n : Inst) (s : State), n.val = i.val →
    ∃ t v, exec (.spdSample n) s = .next t ∧ onlyEstimator i s t ∧ t.spd[i].prevCount = s.enc[i].tickCount ∧
      answers t v ∧ v.toInt = wrap16 (s.enc[i].tickCount.toInt - s.spd[i].prevCount.toInt)

/-- R103: over any sequence of operations the values `SPD.SAMPLE` returns for a channel add up, modulo 2^16, to the
movement of its snapshot: no tick is lost or counted twice by sampling. -/
def Obligations.SamplesAddUpToTheSnapshot : Prop :=
  ∀ (i : Channel) (n : Inst) (ops : List Instr) (s t : State), n.val = i.val → runOps ops s = .next t →
    wrap16 (t.spd[i].prevCount.toInt - s.spd[i].prevCount.toInt) = wrap16 (sampleSum n ops s)

/-- R16, R37: nothing but `SPD.SAMPLE` on the channel writes its snapshot. -/
def Obligations.OnlySampleWritesTheSnapshot : Prop :=
  ∀ (i : Instr) (ch : Channel) (s t : State), exec i s = .next t → t.spd[ch] ≠ s.spd[ch] →
    ∃ n : Inst, n.val = ch.val ∧ i = .spdSample n

/-! ## Saturating arithmetic -/

/-- R110, at both widths: the exact sum limited to the signed range; commutative, not associative; only operands of
the same sign overflow. -/
def Obligations.SaturatingAdditionLimitsTheSum : Prop :=
  (∀ (w : IsumWidth) (a b : Int), ssadd w.bits a b = limitTo w.bits (a + b) ∧ ssadd w.bits a b = ssadd w.bits b a ∧
    (minOf w.bits ≤ a → a ≤ maxOf w.bits → minOf w.bits ≤ b → b ≤ maxOf w.bits → ssadd w.bits a b ≠ a + b →
      (0 ≤ a ↔ 0 ≤ b))) ∧
  ssadd 16 (ssadd 16 32767 1) (-1) = 32766 ∧ ssadd 16 32767 (ssadd 16 1 (-1)) = 32767 ∧
    ssadd 16 32000 32000 = 32767

/-- R111, at both widths: the exact difference limited to the signed range, also where the second operand is the
most negative value; only operands of opposite signs overflow; it is not the addition of the opposite. -/
def Obligations.SaturatingSubtractionLimitsTheDifference : Prop :=
  (∀ (w : IsumWidth) (a b : Int), sssub w.bits a b = limitTo w.bits (a - b) ∧
    (minOf w.bits ≤ a → a ≤ maxOf w.bits → minOf w.bits ≤ b → b ≤ maxOf w.bits →
      (sssub w.bits a b ≠ a - b → ¬(0 ≤ a ↔ 0 ≤ b)) ∧ (0 ≤ a → sssub w.bits a (minOf w.bits) = maxOf w.bits)) ∧
    sssub w.bits (-1) (minOf w.bits) = maxOf w.bits ∧
    sssub w.bits (-1) (minOf w.bits) ≠ ssadd w.bits (-1) (sssub w.bits 0 (minOf w.bits))) ∧
  sssub 16 (-32000) 32000 = -32768

/-- R112, at both widths: the exact product limited to the signed range; the 32-bit product of two 16-bit values
never saturates and is at most 2^30 in magnitude. -/
def Obligations.SaturatingMultiplicationLimitsTheProduct : Prop :=
  (∀ (w : IsumWidth) (a b : Int), ssmul w.bits a b = limitTo w.bits (a * b)) ∧
  (∀ a b : Word16, ssmul 32 a.toInt b.toInt = a.toInt * b.toInt ∧ (a.toInt * b.toInt).natAbs ≤ 2 ^ 30) ∧
  ssmul 16 (-32768) (-32768) = 32767 ∧ ssmul 16 (-32768) (-1) = 32767 ∧ ssmul 16 32000 (-2) = -32768 ∧
    ssmul 16 200 100 = 20000

/-- R113 (decisions D15 and D28 of the spec): for operands in range and a nonzero divisor the quotient is rounded
toward zero, and the only overflow is `MIN / -1`, which gives `MAX`; nothing is said of a zero divisor (log 6). -/
def Obligations.SaturatingDivisionOverflowsOnlyAtMin : Prop :=
  ∀ (w : IsumWidth) (a b : Int), minOf w.bits ≤ a → a ≤ maxOf w.bits → minOf w.bits ≤ b → b ≤ maxOf w.bits → b ≠ 0 →
    ssdiv w.bits a b = (if a = minOf w.bits ∧ b = -1 then maxOf w.bits else Int.tdiv a b) ∧
      ssdiv w.bits 7 2 = 3 ∧ ssdiv w.bits (-7) 2 = -3 ∧ ssdiv w.bits 7 (-2) = -3 ∧ ssdiv w.bits (-7) (-2) = 3 ∧
      ssdiv w.bits 0 b = 0

/-- R115, R116: for 16-bit operands the scaled multiply is the exact product divided by 1024 toward zero, of
magnitude at most 2^20; it is 0 whenever the product is below 1024 in magnitude; with a 32-bit second operand its
magnitude is at most 2^21. -/
def Obligations.ScaledMultiplyIsExactAndBounded : Prop :=
  (∀ k v : Word16, gmul k.toInt v.toInt = scaled k.toInt v.toInt ∧ (gmul k.toInt v.toInt).natAbs ≤ 2 ^ 20 ∧
    ((k.toInt * v.toInt).natAbs < 1024 → gmul k.toInt v.toInt = 0)) ∧
  ∀ (k : Word16) (v : Word32), (gmul k.toInt v.toInt).natAbs ≤ 2 ^ 21

/-- R116: the scaled multiply is odd in each operand that is not the most negative 16-bit value. -/
def Obligations.ScaledMultiplyIsOdd : Prop :=
  ∀ k v : Word16, (v ≠ -32768 → gmul k.toInt (-v).toInt = -gmul k.toInt v.toInt) ∧
    (k ≠ -32768 → gmul (-k).toInt v.toInt = -gmul k.toInt v.toInt)

/-- R139 (an inference the spec marks as derived): the additions of part D never saturate: the raw signal is the
exact sum of the terms its mode uses. -/
def Obligations.RawSignalIsTheExactSum : Prop :=
  ∀ (m : Mode) (c : Pid) (err dIn : Word16) (isum : Word32),
    rawSignal m c err dIn isum =
      match m with
      | .off => 0
      | .p => pTerm c err
      | .pi => iTerm c isum + pTerm c err
      | .pd => dTerm c dIn + pTerm c err
      | .pid => pTerm c err + dTerm c dIn + iTerm c isum
      | .manual => c.output.toInt

/-! ## PID configuration and access -/

/-- R131 (decision D20 of the spec for the cells not written): a word with opcode 8 is `PID.SETCFG` with its mode
and six values, rejected with code 2 or 3 as the rule says; the operation replaces the mode, the gains and the
limits and zeroes `integral_sum` in one step, `min > max` included, answers `(0, 0)`, and leaves every other cell. -/
def Obligations.SetcfgReplacesTheConfiguration : Prop :=
  (∀ c : Config, decodesByMode c 0x08 .pidSetcfg fun f m => .pidSetcfg f.instIdx m f.a0 f.a1 f.a2 f.a3 f.a4 f.a5) ∧
  ∀ (p : Inst) (m : Mode) (kp ki kd kw lo hi : Word16) (s : State), p.val < s.cfg.nPid.toNat →
    ∃ t, exec (.pidSetcfg p m kp ki kd kw lo hi) s = .next t ∧ onlyPid p s t ∧ answers t 0 ∧
      t.pid[p] = { mode := m.toBits, kp := kp, ki := ki, kd := kd, kw := kw, minLimit := lo, maxLimit := hi
                   input := s.pid[p].input, setpoint := s.pid[p].setpoint, output := s.pid[p].output
                   error := s.pid[p].error, lastInput := s.pid[p].lastInput, dInput := s.pid[p].dInput
                   integralSum := 0, saturationAmount := s.pid[p].saturationAmount }

/-- R132 (decision D20 of the spec): a word with opcode 10 is `PID.SETMODE`, rejected with code 2 or 3 as the rule
says; the operation writes the mode and zeroes `integral_sum`, also when the mode is the one in force, answers `(0,
0)`, and leaves every other cell. -/
def Obligations.SetmodeZeroesTheAccumulator : Prop :=
  (∀ c : Config, decodesByMode c 0x0A .pidSetmode fun f m => .pidSetmode f.instIdx m) ∧
  ∀ (p : Inst) (m : Mode) (s : State), p.val < s.cfg.nPid.toNat →
    ∃ t, exec (.pidSetmode p m) s = .next t ∧ onlyPid p s t ∧ answers t 0 ∧
      t.pid[p] = { s.pid[p] with mode := m.toBits, integralSum := 0 }

/-- R161, R142 to R148: the seven setters have the opcodes 16 to 22 and format V, rejected with code 2 or 3 as R161
says; each writes its one cell as given, for every value, answers `(0, 0)`, and changes nothing else. -/
def Obligations.SettersWriteOneCell : Prop :=
  (∀ c : Config,
    decodesBy c 0x10 .pidSetkp c.nPid.toNat (fun f => .pidSetkp f.instIdx f.a0) ∧
    decodesBy c 0x11 .pidSetki c.nPid.toNat (fun f => .pidSetki f.instIdx f.a0) ∧
    decodesBy c 0x12 .pidSetkd c.nPid.toNat (fun f => .pidSetkd f.instIdx f.a0) ∧
    decodesBy c 0x13 .pidSetkw c.nPid.toNat (fun f => .pidSetkw f.instIdx f.a0) ∧
    decodesBy c 0x14 .pidSetout c.nPid.toNat (fun f => .pidSetout f.instIdx f.a0) ∧
    decodesBy c 0x15 .pidSetin c.nPid.toNat (fun f => .pidSetin f.instIdx f.a0) ∧
    decodesBy c 0x16 .pidSetsp c.nPid.toNat (fun f => .pidSetsp f.instIdx f.a0)) ∧
  ∀ (p : Inst) (v : Word16) (s : State), p.val < s.cfg.nPid.toNat →
    (∃ t, exec (.pidSetkp p v) s = .next t ∧ onlyPid p s t ∧ answers t 0 ∧ t.pid[p] = { s.pid[p] with kp := v }) ∧
    (∃ t, exec (.pidSetki p v) s = .next t ∧ onlyPid p s t ∧ answers t 0 ∧ t.pid[p] = { s.pid[p] with ki := v }) ∧
    (∃ t, exec (.pidSetkd p v) s = .next t ∧ onlyPid p s t ∧ answers t 0 ∧ t.pid[p] = { s.pid[p] with kd := v }) ∧
    (∃ t, exec (.pidSetkw p v) s = .next t ∧ onlyPid p s t ∧ answers t 0 ∧ t.pid[p] = { s.pid[p] with kw := v }) ∧
    (∃ t, exec (.pidSetout p v) s = .next t ∧ onlyPid p s t ∧ answers t 0 ∧
      t.pid[p] = { s.pid[p] with output := v }) ∧
    (∃ t, exec (.pidSetin p v) s = .next t ∧ onlyPid p s t ∧ answers t 0 ∧ t.pid[p] = { s.pid[p] with input := v }) ∧
    (∃ t, exec (.pidSetsp p v) s = .next t ∧ onlyPid p s t ∧ answers t 0 ∧
      t.pid[p] = { s.pid[p] with setpoint := v })

/-- R162, R149 to R155: the seven getters have the opcodes 24 to 30 and format N, rejected with code 2 or 3 as R162
says; each answers its one cell and changes nothing. -/
def Obligations.GettersAnswerOneCell : Prop :=
  (∀ c : Config,
    decodesBy c 0x18 .pidGetkp c.nPid.toNat (fun f => .pidGetkp f.instIdx) ∧
    decodesBy c 0x19 .pidGetki c.nPid.toNat (fun f => .pidGetki f.instIdx) ∧
    decodesBy c 0x1A .pidGetkd c.nPid.toNat (fun f => .pidGetkd f.instIdx) ∧
    decodesBy c 0x1B .pidGetkw c.nPid.toNat (fun f => .pidGetkw f.instIdx) ∧
    decodesBy c 0x1C .pidGetout c.nPid.toNat (fun f => .pidGetout f.instIdx) ∧
    decodesBy c 0x1D .pidGetin c.nPid.toNat (fun f => .pidGetin f.instIdx) ∧
    decodesBy c 0x1E .pidGetsp c.nPid.toNat (fun f => .pidGetsp f.instIdx)) ∧
  ∀ (p : Inst) (s : State), p.val < s.cfg.nPid.toNat →
    (∃ t, exec (.pidGetkp p) s = .next t ∧ onlyResponse s t ∧ answers t s.pid[p].kp) ∧
    (∃ t, exec (.pidGetki p) s = .next t ∧ onlyResponse s t ∧ answers t s.pid[p].ki) ∧
    (∃ t, exec (.pidGetkd p) s = .next t ∧ onlyResponse s t ∧ answers t s.pid[p].kd) ∧
    (∃ t, exec (.pidGetkw p) s = .next t ∧ onlyResponse s t ∧ answers t s.pid[p].kw) ∧
    (∃ t, exec (.pidGetout p) s = .next t ∧ onlyResponse s t ∧ answers t s.pid[p].output) ∧
    (∃ t, exec (.pidGetin p) s = .next t ∧ onlyResponse s t ∧ answers t s.pid[p].input) ∧
    (∃ t, exec (.pidGetsp p) s = .next t ∧ onlyResponse s t ∧ answers t s.pid[p].setpoint)

/-- R65, R184, R86 to R88, R103, R131 to R162: an operation on an instance that does not exist is rejected with code
2 and changes nothing. That the operation itself answers so, and not the decoder alone, is the model's choice (log
12). -/
def Obligations.OperationOnAbsentInstanceIsRejected : Prop :=
  ∀ (i : Instr) (s : State), i.wf s.cfg = false →
    ∃ t, exec i s = .next t ∧ onlyResponse s t ∧ t.rsp = some { code := .badInst, data := 0 }

/-- The "written by" column of R20's table: an operation changes a cell of a PID instance only if the table lists it
for that cell, and only on the instance it names. -/
def Obligations.PidCellsHaveOnlyTheirWriters : Prop :=
  ∀ (i : Instr) (p : Inst) (cell : PidCell) (s t : State), exec i s = .next t → mayWrite p cell i = false →
    t.pid[p].cell cell = s.pid[p].cell cell

/-- R20, R37 "the instances are independent": what a `PID.*` command does to its instance and what it answers depend
on that instance and the parameters alone, on no other cell of the machine. -/
def Obligations.PidCommandsDependOnTheirInstanceAlone : Prop :=
  ∀ (i : Instr) (p : Inst) (s₁ s₂ t₁ : State), pidOperand i = some p → s₁.cfg = s₂.cfg → s₁.pid[p] = s₂.pid[p] →
    exec i s₁ = .next t₁ →
    ∃ t₂, exec i s₂ = .next t₂ ∧ t₂.pid[p] = t₁.pid[p] ∧ t₂.rsp = t₁.rsp ∧ onlyPid p s₂ t₂

/-! ## The control step -/

/-- R133 to R141: a word with opcode 9 is `PID.COMPUTE` of its first two values, rejected with code 2 or 3 as the
rule says. For a legal mode the operation has a next state in which `d_input` and `error` are the limited
differences; the accumulator is updated left to right at `W_ISUM` bits with the previous `saturation_amount` (D16);
`output` is the raw signal clamped, the exact sum of the terms of the mode (R139); `saturation_amount` is the
limited excess; `last_input` is the input. It answers the output and changes nothing else. -/
def Obligations.ComputeFollowsTheControlLaw : Prop :=
  (∀ c : Config, decodesBy c 0x09 .pidCompute c.nPid.toNat fun f => .pidCompute f.instIdx f.a0 f.a1) ∧
  ∀ (p : Inst) (m : Mode) (x sp : Word16) (s : State), p.val < s.cfg.nPid.toNat → s.pid[p].mode = m.toBits →
    ∃ t raw, exec (.pidCompute p x sp) s = .next t ∧ onlyPid p s t ∧ answers t t.pid[p].output ∧
      t.pid[p].input = x ∧ t.pid[p].setpoint = sp ∧ t.pid[p].lastInput = x ∧
      t.pid[p].dInput.toInt = limitTo 16 (x.toInt - s.pid[p].lastInput.toInt) ∧
      t.pid[p].error.toInt = limitTo 16 (x.toInt - sp.toInt) ∧
      t.pid[p].integralSum.toInt =
        limitTo s.cfg.wIsum.bits
          (limitTo s.cfg.wIsum.bits (s.pid[p].integralSum.toInt + t.pid[p].error.toInt) -
            limitTo s.cfg.wIsum.bits (scaled s.pid[p].kw.toInt s.pid[p].saturationAmount.toInt)) ∧
      raw = exactRaw m s.pid[p] t.pid[p].error.toInt t.pid[p].dInput.toInt t.pid[p].integralSum.toInt ∧
      t.pid[p].output.toInt = clampTo s.pid[p].minLimit.toInt s.pid[p].maxLimit.toInt raw ∧
      t.pid[p].saturationAmount.toInt = limitTo 16 (excessOf s.pid[p].minLimit.toInt s.pid[p].maxLimit.toInt raw) ∧
      (∀ cell, mayWrite p cell (.pidCompute p x sp) = false → t.pid[p].cell cell = s.pid[p].cell cell)

/-- R187 (decision D24 of the spec): `PID.COMPUTE` on an instance whose mode cell holds 6 or 7 does not go on. That
the cell can hold them is the model's choice (log 11). -/
def Obligations.ComputeInAnIllegalModeFaults : Prop :=
  ∀ (p : Inst) (x sp : Word16) (s : State), p.val < s.cfg.nPid.toNat → 6 ≤ s.pid[p].mode.toNat →
    exec (.pidCompute p x sp) s = .fault (.illegalMode p)

/-- R156, property P3 (an inference the spec marks as derived): with `min <= max`, from every state, the value a
compute stores and answers lies within the limits. -/
def Obligations.ComputedOutputLiesWithinTheLimits : Prop :=
  ∀ (p : Inst) (x sp : Word16) (s : State), p.val < s.cfg.nPid.toNat → s.pid[p].mode.toNat < 6 →
    s.pid[p].minLimit.toInt ≤ s.pid[p].maxLimit.toInt →
    ∃ t, exec (.pidCompute p x sp) s = .next t ∧ answers t t.pid[p].output ∧
      s.pid[p].minLimit.toInt ≤ t.pid[p].output.toInt ∧ t.pid[p].output.toInt ≤ s.pid[p].maxLimit.toInt

/-- R157, property P4 with its limits (an inference the spec marks as derived): after a `PID.SETCFG` the next
compute answers what a fresh controller given the same two commands answers, under the spec's conditions for each
mode. -/
def Obligations.ReconfiguredControllerMatchesAFreshOne : Prop :=
  ∀ (p : Inst) (m : Mode) (kp ki kd kw lo hi x sp : Word16) (s : State), p.val < s.cfg.nPid.toNat →
    (m = .pi ∨ m = .pid → gmul kw.toInt s.pid[p].saturationAmount.toInt = 0) →
    (m = .pd ∨ m = .pid →
      gmul kd.toInt (sssub 16 x.toInt s.pid[p].lastInput.toInt) = gmul kd.toInt x.toInt) →
    (m = .manual → clampTo lo.toInt hi.toInt s.pid[p].output.toInt = clampTo lo.toInt hi.toInt 0) →
    ∃ t u, runOps [.pidSetcfg p m kp ki kd kw lo hi, .pidCompute p x sp] s = .next t ∧
      runOps [.pidSetcfg p m kp ki kd kw lo hi, .pidCompute p x sp] (State.resetWith s.cfg) = .next u ∧
      t.pid[p].output = u.pid[p].output ∧ t.rsp = u.rsp

/-- R158, property P7 in mode OFF (an inference the spec marks as derived): the result is 0 clamped to the limits,
whatever the history and the operands. -/
def Obligations.OffComputesZeroClamped : Prop :=
  ∀ (p : Inst) (x sp : Word16) (s : State), p.val < s.cfg.nPid.toNat → s.pid[p].mode = 0#3 →
    ∃ t, exec (.pidCompute p x sp) s = .next t ∧ answers t t.pid[p].output ∧
      t.pid[p].output.toInt =
        if s.pid[p].maxLimit.toInt < 0 then s.pid[p].maxLimit.toInt
        else if 0 < s.pid[p].minLimit.toInt then s.pid[p].minLimit.toInt else 0

/-- R158, R146, property P7 in mode MANUAL (an inference the spec marks as derived): after `PID.SETOUT` with a value
within the limits every one of any number of computes answers that value, whatever its operands, and records no
excess. -/
def Obligations.ManualHoldsTheSetOutput : Prop :=
  ∀ (p : Inst) (v : Word16) (operands : List (Word16 × Word16)) (x sp : Word16) (s : State),
    p.val < s.cfg.nPid.toNat → s.pid[p].mode = 5#3 →
    s.pid[p].minLimit.toInt ≤ v.toInt → v.toInt ≤ s.pid[p].maxLimit.toInt →
    ∃ t, runOps (.pidSetout p v :: (operands.map fun q => .pidCompute p q.1 q.2) ++ [.pidCompute p x sp]) s = .next t ∧
      answers t v ∧ t.pid[p].output = v ∧ t.pid[p].saturationAmount = 0

/-- R36 (b), with R140 (an inference the spec marks as derived): what a compute records of its clamp stays true
until the next `PID.SETOUT`, `PID.SETCFG` or `PID.COMPUTE` on the instance. -/
def Obligations.ClampRecordHoldsUntilRewritten : Prop :=
  ∀ (p : Inst) (x sp : Word16) (ops : List Instr) (s t u : State), p.val < s.cfg.nPid.toNat →
    exec (.pidCompute p x sp) s = .next t →
    (∀ i ∈ ops, mayWrite p .output i = false ∧ mayWrite p .minLimit i = false) → runOps ops t = .next u →
    clampRecorded u.pid[p]

/-- R36 (c) and (d) (an inference the spec marks as derived): after `PID.SETCFG` or `PID.SETMODE` the accumulator is
0 until the next compute on the instance; after a compute `last_input` equals `input` until the next `PID.SETIN` or
compute. -/
def Obligations.AccumulatorAndLastInputInvariants : Prop :=
  (∀ (i : Instr) (p : Inst) (ops : List Instr) (s t u : State), p.val < s.cfg.nPid.toNat →
    mayWrite p .mode i = true → exec i s = .next t → (∀ j ∈ ops, ∀ x sp, j ≠ .pidCompute p x sp) →
    runOps ops t = .next u → u.pid[p].integralSum = 0) ∧
  (∀ (p : Inst) (x sp : Word16) (ops : List Instr) (s t u : State), p.val < s.cfg.nPid.toNat →
    exec (.pidCompute p x sp) s = .next t → (∀ j ∈ ops, mayWrite p .input j = false) →
    runOps ops t = .next u → u.pid[p].lastInput = u.pid[p].input)

/-- R23, R211 (decision D21 of the spec): from the reset state, after any sequence of operations without a
`PID.SETCFG` on the instance, a compute on it answers 0. -/
def Obligations.UnconfiguredControllerAnswersZero : Prop :=
  ∀ (c : Config) (p : Inst) (x sp : Word16) (ops : List Instr), p.val < c.nPid.toNat →
    (∀ i ∈ ops, mayWrite p .maxLimit i = false) →
    ∃ t, runOps (ops ++ [.pidCompute p x sp]) (State.resetWith c) = .next t ∧ answers t 0

/-- R159 (an inference the spec marks as derived): the source's Scenario on this hardware, from reset. -/
def Obligations.ScenarioClampsAndRecordsTheExcess : Prop :=
  ∃ t u, runOps [.pidSetcfg 0 .p 1024 0 0 0 (-255) 255, .pidCompute 0 50 0] State.reset = .next t ∧
    answers t 50 ∧ t.pid[(0 : Inst)].error = 50 ∧ t.pid[(0 : Inst)].saturationAmount = 0 ∧
    exec (.pidCompute 0 500 0) t = .next u ∧ answers u 255 ∧ u.pid[(0 : Inst)].saturationAmount = 245 ∧
    u.pid[(0 : Inst)].dInput = 450 ∧ u.pid[(0 : Inst)].integralSum = 550 ∧ u.pid[(0 : Inst)].lastInput = 500
end

