-- ==== Sys2Proof/Laws/Arith.lean ====
section
/-! SUPPORT. The integer laws: ranges of cells, storing and reading a cell, bounds of `sat`, `tdiv` as the library's
truncating division. -/

namespace Sys2Proof.Machine

theorem word16_range (v : Word16) : -32768 ≤ v.toInt ∧ v.toInt ≤ 32767 := by
  have h1 := BitVec.two_mul_toInt_lt (x := v)
  have h2 := BitVec.le_two_mul_toInt (x := v)
  omega

theorem word32_range (v : Word32) : -2147483648 ≤ v.toInt ∧ v.toInt ≤ 2147483647 := by
  have h1 := BitVec.two_mul_toInt_lt (x := v)
  have h2 := BitVec.le_two_mul_toInt (x := v)
  omega

/-- A stored integer reads back modulo 2^16, as a signed value. -/
theorem toInt_cell16_wrap (x : Int) : (cell16 x).toInt = wrap16 x := by
  simp [cell16, wrap16, BitVec.toInt_ofInt]

/-- A stored integer of the signed 16-bit range reads back as itself. -/
theorem toInt_cell16 {x : Int} (h : -32768 ≤ x ∧ x ≤ 32767) : (cell16 x).toInt = x := by
  rw [toInt_cell16_wrap, wrap16]
  exact Int.bmod_eq_of_le (by omega) (by omega)

/-- A stored integer of the signed 32-bit range reads back as itself. -/
theorem toInt_cellSum {x : Int} (h : -2147483648 ≤ x ∧ x ≤ 2147483647) : (cellSum x).toInt = x := by
  rw [cellSum, BitVec.toInt_ofInt]
  exact Int.bmod_eq_of_le (by omega) (by omega)

/-- Reading a cell and storing it again gives the cell. -/
theorem cell16_toInt (v : Word16) : cell16 v.toInt = v := BitVec.ofInt_toInt

theorem maxOf_16 : maxOf 16 = 32767 := rfl
theorem minOf_16 : minOf 16 = -32768 := rfl
theorem maxOf_32 : maxOf 32 = 2147483647 := rfl
theorem minOf_32 : minOf 32 = -2147483648 := rfl

/-- `sat_16` by its two bounds. -/
theorem sat_16 (x : Int) : sat 16 x = max (-32768) (min 32767 x) := rfl

/-- `sat_32` by its two bounds. -/
theorem sat_32 (x : Int) : sat 32 x = max (-2147483648) (min 2147483647 x) := rfl

theorem sat_16_range (x : Int) : -32768 ≤ sat 16 x ∧ sat 16 x ≤ 32767 := by rw [sat_16]; omega

theorem sat_32_range (x : Int) : -2147483648 ≤ sat 32 x ∧ sat 32 x ≤ 2147483647 := by rw [sat_32]; omega

/-- `sat` at either accumulator width stays in that width's range. -/
theorem sat_range (w : IsumWidth) (x : Int) : minOf w.bits ≤ sat w.bits x ∧ sat w.bits x ≤ maxOf w.bits := by
  cases w
  · exact sat_16_range x
  · exact sat_32_range x

/-- The quotient of R7 is the library's division rounding toward zero. -/
theorem tdiv_eq (a b : Int) : tdiv a b = Int.tdiv a b := by
  have h := Int.sign_mul_natAbs (Int.tdiv a b)
  rw [Int.sign_tdiv, Int.natAbs_tdiv] at h
  rw [tdiv, ← h]
  by_cases hlt : a.natAbs < b.natAbs
  · have hz : a.natAbs / b.natAbs = 0 := Nat.div_eq_of_lt hlt
    have hz' : a.natAbs.div b.natAbs = 0 := hz
    simp [hz, hz']
  · rw [if_neg hlt]
    rfl

/-- The scaled multiply: the product limited to 32 bits, divided by 1024 rounding toward zero. The divisor is never
zero, so the free value of a division by zero (log 6) is never reached. -/
theorem gmul_eq (k v : Int) : gmul k v = sat 32 (Int.tdiv (sat 32 (k * v)) 1024) := by
  simp [gmul, ssdiv, ssmul, Config.scale, tdiv_eq]

/-- A product of two 16-bit values is at most 2^30 in magnitude. -/
theorem natAbs_mul_word16_le (a b : Word16) : (a.toInt * b.toInt).natAbs ≤ 1073741824 := by
  have ha := word16_range a
  have hb := word16_range b
  rw [Int.natAbs_mul]
  exact (Nat.mul_le_mul (show a.toInt.natAbs ≤ 32768 by omega) (show b.toInt.natAbs ≤ 32768 by omega)).trans (by norm_num)

/-- Division by 1024 divides the magnitude. -/
theorem natAbs_tdiv_1024 (x : Int) : (Int.tdiv x 1024).natAbs = x.natAbs / 1024 := Int.natAbs_tdiv x 1024

end Sys2Proof.Machine
end

