-- ==== Sys2Proof/Laws/State.lean ====
section
/-! SUPPORT. One lemma per field per update of State, and what is read back from the instance that was written. -/

namespace Sys2Proof.Machine

/-! `State.respond` -/

@[simp] theorem State.respond_cfg (s : State) (data : Word16) : (s.respond data).cfg = s.cfg := rfl
@[simp] theorem State.respond_enc (s : State) (data : Word16) : (s.respond data).enc = s.enc := rfl
@[simp] theorem State.respond_spd (s : State) (data : Word16) : (s.respond data).spd = s.spd := rfl
@[simp] theorem State.respond_pid (s : State) (data : Word16) : (s.respond data).pid = s.pid := rfl
@[simp] theorem State.respond_inputs (s : State) (data : Word16) : (s.respond data).inputs = s.inputs := rfl
@[simp] theorem State.respond_rsp (s : State) (data : Word16) : (s.respond data).rsp = some { code := .ok, data := data } := rfl

/-! `State.reject` -/

@[simp] theorem State.reject_cfg (s : State) (r : Rejection) : (s.reject r).cfg = s.cfg := rfl
@[simp] theorem State.reject_enc (s : State) (r : Rejection) : (s.reject r).enc = s.enc := rfl
@[simp] theorem State.reject_spd (s : State) (r : Rejection) : (s.reject r).spd = s.spd := rfl
@[simp] theorem State.reject_pid (s : State) (r : Rejection) : (s.reject r).pid = s.pid := rfl
@[simp] theorem State.reject_inputs (s : State) (r : Rejection) : (s.reject r).inputs = s.inputs := rfl
@[simp] theorem State.reject_rsp (s : State) (r : Rejection) : (s.reject r).rsp = some { code := rejectionCode r, data := 0 } := rfl

/-! `State.noResponse` -/

@[simp] theorem State.noResponse_cfg (s : State) : s.noResponse.cfg = s.cfg := rfl
@[simp] theorem State.noResponse_enc (s : State) : s.noResponse.enc = s.enc := rfl
@[simp] theorem State.noResponse_spd (s : State) : s.noResponse.spd = s.spd := rfl
@[simp] theorem State.noResponse_pid (s : State) : s.noResponse.pid = s.pid := rfl
@[simp] theorem State.noResponse_inputs (s : State) : s.noResponse.inputs = s.inputs := rfl
@[simp] theorem State.noResponse_rsp (s : State) : s.noResponse.rsp = none := rfl

/-! `State.setEnc` -/

@[simp] theorem State.setEnc_cfg (s : State) (i : Channel) (d : Decoder) : (s.setEnc i d).cfg = s.cfg := rfl
@[simp] theorem State.setEnc_enc (s : State) (i : Channel) (d : Decoder) : (s.setEnc i d).enc = s.enc.set i d := rfl
@[simp] theorem State.setEnc_spd (s : State) (i : Channel) (d : Decoder) : (s.setEnc i d).spd = s.spd := rfl
@[simp] theorem State.setEnc_pid (s : State) (i : Channel) (d : Decoder) : (s.setEnc i d).pid = s.pid := rfl
@[simp] theorem State.setEnc_inputs (s : State) (i : Channel) (d : Decoder) : (s.setEnc i d).inputs = s.inputs := rfl
@[simp] theorem State.setEnc_rsp (s : State) (i : Channel) (d : Decoder) : (s.setEnc i d).rsp = s.rsp := rfl

/-! `State.setPrev` -/

@[simp] theorem State.setPrev_cfg (s : State) (i : Channel) (n : Word16) : (s.setPrev i n).cfg = s.cfg := rfl
@[simp] theorem State.setPrev_enc (s : State) (i : Channel) (n : Word16) : (s.setPrev i n).enc = s.enc := rfl
@[simp] theorem State.setPrev_spd (s : State) (i : Channel) (n : Word16) : (s.setPrev i n).spd = s.spd.set i { prevCount := n } := rfl
@[simp] theorem State.setPrev_pid (s : State) (i : Channel) (n : Word16) : (s.setPrev i n).pid = s.pid := rfl
@[simp] theorem State.setPrev_inputs (s : State) (i : Channel) (n : Word16) : (s.setPrev i n).inputs = s.inputs := rfl
@[simp] theorem State.setPrev_rsp (s : State) (i : Channel) (n : Word16) : (s.setPrev i n).rsp = s.rsp := rfl

/-! `State.setPid` -/

@[simp] theorem State.setPid_cfg (s : State) (p : Inst) (c : Pid) : (s.setPid p c).cfg = s.cfg := rfl
@[simp] theorem State.setPid_enc (s : State) (p : Inst) (c : Pid) : (s.setPid p c).enc = s.enc := rfl
@[simp] theorem State.setPid_spd (s : State) (p : Inst) (c : Pid) : (s.setPid p c).spd = s.spd := rfl
@[simp] theorem State.setPid_pid (s : State) (p : Inst) (c : Pid) : (s.setPid p c).pid = s.pid.set p c := rfl
@[simp] theorem State.setPid_inputs (s : State) (p : Inst) (c : Pid) : (s.setPid p c).inputs = s.inputs := rfl
@[simp] theorem State.setPid_rsp (s : State) (p : Inst) (c : Pid) : (s.setPid p c).rsp = s.rsp := rfl

/-! `State.takePins` -/

@[simp] theorem State.takePins_cfg (s : State) : s.takePins.cfg = s.cfg := rfl
@[simp] theorem State.takePins_enc (s : State) : s.takePins.enc = s.enc := rfl
@[simp] theorem State.takePins_spd (s : State) : s.takePins.spd = s.spd := rfl
@[simp] theorem State.takePins_pid (s : State) : s.takePins.pid = s.pid := rfl
@[simp] theorem State.takePins_inputs (s : State) : s.takePins.inputs = s.inputs.tail := rfl
@[simp] theorem State.takePins_rsp (s : State) : s.takePins.rsp = s.rsp := rfl

/-! `State.withPins` -/

@[simp] theorem State.withPins_cfg (s : State) (c : Cycle) : (s.withPins c).cfg = s.cfg := rfl
@[simp] theorem State.withPins_enc (s : State) (c : Cycle) : (s.withPins c).enc = s.enc := rfl
@[simp] theorem State.withPins_spd (s : State) (c : Cycle) : (s.withPins c).spd = s.spd := rfl
@[simp] theorem State.withPins_pid (s : State) (c : Cycle) : (s.withPins c).pid = s.pid := rfl
@[simp] theorem State.withPins_inputs (s : State) (c : Cycle) : (s.withPins c).inputs = c :: s.inputs.tail := rfl
@[simp] theorem State.withPins_rsp (s : State) (c : Cycle) : (s.withPins c).rsp = s.rsp := rfl

/-! `State.resetAll` -/

@[simp] theorem State.resetAll_cfg (s : State) : s.resetAll.cfg = s.cfg := rfl
@[simp] theorem State.resetAll_enc (s : State) : s.resetAll.enc = #v[Decoder.reset, Decoder.reset] := rfl
@[simp] theorem State.resetAll_spd (s : State) : s.resetAll.spd = #v[Estimator.reset, Estimator.reset] := rfl
@[simp] theorem State.resetAll_pid (s : State) : s.resetAll.pid = #v[Pid.reset, Pid.reset, Pid.reset, Pid.reset] := rfl
@[simp] theorem State.resetAll_inputs (s : State) : s.resetAll.inputs = s.inputs := rfl
@[simp] theorem State.resetAll_rsp (s : State) : s.resetAll.rsp = none := rfl

/-! The written instance reads as written, every other one as before. -/

@[simp] theorem vector_set_same {α : Type} {n : Nat} (v : Vector α n) (i : Fin n) (x : α) : (v.set i x)[i] = x := by
  simp

theorem vector_set_other {α : Type} {n : Nat} (v : Vector α n) (i j : Fin n) (x : α) (h : j ≠ i) :
    (v.set i x)[j] = v[j] := by
  have hne : (i : Nat) ≠ j := fun e => h (Fin.ext e.symm)
  simp [hne]

theorem vector_set_self {α : Type} {n : Nat} (v : Vector α n) (i : Fin n) : v.set i v[i] = v := by
  ext j hj
  simp only [Vector.getElem_set]
  split
  · rename_i h; subst h; rfl
  · rfl

/-- The reset state's instances are at reset. -/
theorem resetWith_instances (c : Config) :
    (∀ i : Channel, (State.resetWith c).enc[i] = Decoder.reset ∧ (State.resetWith c).spd[i] = Estimator.reset) ∧
      ∀ p : Inst, (State.resetWith c).pid[p] = Pid.reset := by
  constructor
  · intro i; fin_cases i <;> exact ⟨rfl, rfl⟩
  · intro p; fin_cases p <;> rfl

end Sys2Proof.Machine
end

