-- ==== Sys2Proof/Laws/Ops.lean ====
section
/-! SUPPORT. One lemma per shared operation: everything it can answer. -/

namespace Sys2Proof.Machine

/-- An `inst` operand below 2 selects the decoder of that number, any other none. -/
theorem channelOf_cases (n : Inst) :
    (∃ i : Channel, n.val = i.val ∧ channelOf n = some i) ∨ (2 ≤ n.val ∧ channelOf n = none) := by
  by_cases h : n.val < 2
  · exact .inl ⟨⟨n.val, h⟩, rfl, by simp [channelOf, h]⟩
  · exact .inr ⟨by omega, by simp [channelOf, h]⟩

theorem channelOf_eq {n : Inst} {i : Channel} (h : n.val = i.val) : channelOf n = some i := by
  simp [channelOf, h, i.isLt]

theorem onChannel_of_lt {s : State} {n : Inst} {i : Channel} (h : n.val = i.val) (k : Channel → Result) :
    onChannel s n k = k i := by
  simp [onChannel, channelOf_eq h]

theorem onChannel_of_ge {s : State} {n : Inst} (h : 2 ≤ n.val) (k : Channel → Result) :
    onChannel s n k = .next (s.reject .badInst) := by
  simp [onChannel, channelOf, Nat.not_lt.mpr h]

/-- A command on a decoder runs on the decoder its operand selects, or is rejected. -/
theorem onChannel_cases (s : State) (n : Inst) (k : Channel → Result) :
    (∃ i : Channel, n.val = i.val ∧ onChannel s n k = k i) ∨
      (2 ≤ n.val ∧ onChannel s n k = .next (s.reject .badInst)) := by
  by_cases h : n.val < 2
  · exact .inl ⟨⟨n.val, h⟩, rfl, onChannel_of_lt rfl k⟩
  · exact .inr ⟨by omega, onChannel_of_ge (by omega) k⟩

theorem onPid_of_lt {s : State} {n : Inst} (h : n.val < s.cfg.nPid.toNat) (k : Result) : onPid s n k = k := by
  simp [onPid, hasPid, h]

theorem onPid_of_ge {s : State} {n : Inst} (h : s.cfg.nPid.toNat ≤ n.val) (k : Result) :
    onPid s n k = .next (s.reject .badInst) := by
  simp [onPid, hasPid, Nat.not_lt.mpr h]

/-- A command on a PID instance runs, or is rejected. -/
theorem onPid_cases (s : State) (n : Inst) (k : Result) :
    (n.val < s.cfg.nPid.toNat ∧ onPid s n k = k) ∨
      (s.cfg.nPid.toNat ≤ n.val ∧ onPid s n k = .next (s.reject .badInst)) := by
  by_cases h : n.val < s.cfg.nPid.toNat
  · exact .inl ⟨h, onPid_of_lt h k⟩
  · exact .inr ⟨by omega, onPid_of_ge (by omega) k⟩

/-- A getter answers its cell, or is rejected. -/
theorem readPid_cases (s : State) (n : Inst) (get : Pid → Word16) :
    (n.val < s.cfg.nPid.toNat ∧ readPid s n get = .next (s.respond (get s.pid[n]))) ∨
      (s.cfg.nPid.toNat ≤ n.val ∧ readPid s n get = .next (s.reject .badInst)) :=
  onPid_cases s n _

/-- A command that writes a PID instance writes it and answers 0, or is rejected. -/
theorem writePid_cases (s : State) (n : Inst) (put : Pid → Pid) :
    (n.val < s.cfg.nPid.toNat ∧ writePid s n put = .next ((s.setPid n (put s.pid[n])).respond 0)) ∨
      (s.cfg.nPid.toNat ≤ n.val ∧ writePid s n put = .next (s.reject .badInst)) :=
  onPid_cases s n _

/-- A read of a decoder answers its value, or is rejected. -/
theorem readEnc_cases (s : State) (n : Inst) (get : Decoder → Word16) :
    (∃ i : Channel, n.val = i.val ∧ readEnc s n get = .next (s.respond (get s.enc[i]))) ∨
      (2 ≤ n.val ∧ readEnc s n get = .next (s.reject .badInst)) :=
  onChannel_cases s n _

/-- A continuation runs exactly where the first result is a next state. -/
theorem thenRun_next {r : Result} {k : State → Result} {t : State} (h : thenRun r k = .next t) :
    ∃ u, r = .next u ∧ k u = .next t := by
  cases r with
  | next u => exact ⟨u, rfl, h⟩
  | fault f => cases h
  | refused f => cases h

@[simp] theorem thenRun_of_next (s : State) (k : State → Result) : thenRun (.next s) k = k s := rfl

/-- Running a sequence and then another is running the two joined. -/
theorem runOps_append (xs ys : List Instr) (s : State) : runOps (xs ++ ys) s = thenRun (runOps xs s) (runOps ys) := by
  induction xs generalizing s with
  | nil => rfl
  | cons x xs ih =>
    simp only [List.cons_append, runOps]
    cases exec x s with
    | next u => exact ih u
    | fault f => rfl
    | refused f => rfl

/-- What every operation keeps holds after every sequence of them. -/
theorem runOps_keeps (P : State → Prop) (ok : Instr → Prop)
    (step : ∀ i s t, ok i → P s → exec i s = .next t → P t) :
    ∀ (ops : List Instr) (s t : State), (∀ i ∈ ops, ok i) → P s → runOps ops s = .next t → P t := by
  intro ops
  induction ops with
  | nil =>
    intro s t _ hp h
    cases h
    exact hp
  | cons i is ih =>
    intro s t hok hp h
    obtain ⟨u, hu, hrest⟩ := thenRun_next h
    exact ih u t (fun j hj => hok j (List.mem_cons_of_mem _ hj)) (step i s u (hok i List.mem_cons_self) hp hu) hrest

/-- The pins of the cycle just placed are the ones read. -/
@[simp] theorem withPins_pins (s : State) (c : Cycle) : (s.withPins c).pins = c := rfl

end Sys2Proof.Machine
end

