-- ==== Sys2Proof/Laws/Cycle.lean ====
section
/-! SUPPORT. What the parts of one clock cycle can answer. -/

namespace Sys2Proof.Machine

/-- An event port always has a next state: the decoder stepped, or nothing. -/
theorem runEvent_eq (i : Channel) (e : Option Pair) (s : State) :
    runEvent i e s = .next (match e with
      | none => s
      | some ab => s.setEnc i (edgeStep s.enc[i] ab)) := by
  cases e <;> rfl

/-- A cycle with reset. -/
theorem runCycle_reset {c : Cycle} (h : c.rst = true) (s : State) : runCycle c s = .next s.resetAll := by
  simp [runCycle, h]

/-- A cycle without reset that has a next state: the two event ports, then the command port. -/
theorem runCycle_next {c : Cycle} {s t : State} (hrst : c.rst = false) (h : runCycle c s = .next t) :
    ∃ s₁ s₂, runEvent 0 c.evt[0] s.noResponse = .next s₁ ∧ runEvent 1 c.evt[1] s₁ = .next s₂ ∧
      runCommand c.cmd s₂ = .next t := by
  simp only [runCycle, hrst, Bool.false_eq_true, if_false] at h
  obtain ⟨s₁, h₁, hrest⟩ := thenRun_next h
  obtain ⟨s₂, h₂, h₃⟩ := thenRun_next hrest
  exact ⟨s₁, s₂, h₁, h₂, h₃⟩

/-- The command port: nothing, the operation decoded, or the rejection. -/
theorem runCommand_cases (cmd : Option CmdWord) (s : State) :
    (cmd = none ∧ runCommand cmd s = .next s) ∨
      (∃ cw i, cmd = some cw ∧ decode s.cfg cw = .op i ∧ runCommand cmd s = exec i s) ∨
      ∃ cw r, cmd = some cw ∧ decode s.cfg cw = .reject r ∧ runCommand cmd s = .next (s.reject r) := by
  cases cmd with
  | none => exact .inl ⟨rfl, rfl⟩
  | some cw =>
    cases h : decode s.cfg cw with
    | op i => exact .inr (.inl ⟨cw, i, rfl, h, by simp [runCommand, h]⟩)
    | reject r => exact .inr (.inr ⟨cw, r, rfl, h, by simp [runCommand, h]⟩)

end Sys2Proof.Machine
end

