-- ==== Sys2Proof/Laws/Encoding.lean ====
section
/-! SUPPORT. The fields of a command word, bit by bit: packing and unpacking undo one another, and a row's shape is a
condition on the fields. -/

namespace Sys2Proof.Machine

theorem mode_ofBits_toBits (m : Mode) : Mode.ofBits m.toBits = some m := by cases m <;> rfl

theorem mode_ofBits_eq_some {b : BitVec 3} {m : Mode} : Mode.ofBits b = some m ↔ b = m.toBits := by
  revert b m
  intro b m
  constructor
  · intro h
    have : ∀ b : BitVec 3, ∀ m ∈ Mode.ofBits b, b = m.toBits := by decide
    exact this b m h
  · rintro rfl
    exact mode_ofBits_toBits m

theorem mode_ofBits_eq_none {b : BitVec 3} : Mode.ofBits b = none ↔ 6 ≤ b.toNat := by
  revert b; decide

theorem opcode_ofBits_toBits (o : Opcode) : Opcode.ofBits o.toBits = some o := by cases o <;> rfl

theorem opcode_ofBits_eq_some {b : BitVec 5} {o : Opcode} : Opcode.ofBits b = some o ↔ b = o.toBits := by
  constructor
  · intro h
    have : ∀ b : BitVec 5, ∀ o ∈ Opcode.ofBits b, b = o.toBits := by decide
    exact this b o h
  · rintro rfl
    exact opcode_ofBits_toBits o

theorem getLsbD_placeAt {w : Nat} (lo : Nat) (x : BitVec w) (i : Nat) :
    (placeAt lo x).getLsbD i = (decide (i < 112) && decide (lo ≤ i) && x.getLsbD (i - lo)) := by
  by_cases h : i < 112 <;> by_cases h2 : lo ≤ i <;>
    simp [placeAt, BitVec.getLsbD_shiftLeft, BitVec.getLsbD_setWidth, h, h2]

/-- Unpacking a packed word gives the fields back. -/
theorem ofWord_toWord (f : Fields) : Fields.ofWord f.toWord = f := by
  cases f
  simp only [Fields.ofWord, Fields.toWord, Fields.mk.injEq]
  refine ⟨?_, ?_, ?_, ?_, ?_, ?_, ?_, ?_, ?_, ?_⟩ <;> ext i hi <;>
    simp only [BitVec.getElem_extractLsb', BitVec.getLsbD_or, getLsbD_placeAt] <;>
    interval_cases i <;> simp [BitVec.getLsbD_of_ge]

/-- Packing the fields of a word gives the word back. -/
theorem toWord_ofWord (cw : CmdWord) : (Fields.ofWord cw).toWord = cw := by
  apply BitVec.eq_of_getLsbD_eq
  intro i hi
  simp only [Fields.ofWord, Fields.toWord, BitVec.getLsbD_or, getLsbD_placeAt, BitVec.getLsbD_extractLsb']
  interval_cases i <;> simp

theorem ofWord_injective {v w : CmdWord} (h : Fields.ofWord v = Fields.ofWord w) : v = w := by
  rw [← toWord_ofWord v, ← toWord_ofWord w, h]

/-! The shape of a row, field by field. -/

/-- The bitwise conjunction of two words, field by field. -/
def andFields (f g : Fields) : Fields :=
  { op := f.op &&& g.op, inst := f.inst &&& g.inst, mode := f.mode &&& g.mode, rsv := f.rsv &&& g.rsv
    a0 := f.a0 &&& g.a0, a1 := f.a1 &&& g.a1, a2 := f.a2 &&& g.a2, a3 := f.a3 &&& g.a3, a4 := f.a4 &&& g.a4
    a5 := f.a5 &&& g.a5 }

theorem ofWord_and (v w : CmdWord) : Fields.ofWord (v &&& w) = andFields (Fields.ofWord v) (Fields.ofWord w) := by
  simp [Fields.ofWord, andFields, BitVec.extractLsb'_and]

/-- A mask over a field: nothing where the field is used, everything where it must be zero. -/
def maskIf (used : Bool) (w : Nat) : BitVec w := if used then 0#w else BitVec.allOnes w

theorem and_maskIf {w : Nat} (b : BitVec w) (used : Bool) :
    b &&& maskIf used w = 0#w ↔ (used = true ∨ b = 0#w) := by
  cases used <;> simp [maskIf]

/-- The mask of a format, field by field (R61). -/
def maskFields (fmt : Format) : Fields :=
  { op := BitVec.allOnes 5, inst := maskIf fmt.usesInst 2, mode := maskIf fmt.usesMode 3, rsv := maskIf false 6
    a0 := maskIf (decide (0 < fmt.nValues)) 16, a1 := maskIf (decide (1 < fmt.nValues)) 16
    a2 := maskIf (decide (2 < fmt.nValues)) 16, a3 := maskIf (decide (3 < fmt.nValues)) 16
    a4 := maskIf (decide (4 < fmt.nValues)) 16, a5 := maskIf (decide (5 < fmt.nValues)) 16 }

theorem ofWord_formatMask (fmt : Format) : Fields.ofWord (formatMask fmt) = maskFields fmt := by
  cases fmt <;> decide

theorem ofWord_rowMatch (o : Opcode) :
    Fields.ofWord (rowMatch o) =
      { op := o.toBits, inst := 0#2, mode := 0#3, rsv := 0#6
        a0 := 0#16, a1 := 0#16, a2 := 0#16, a3 := 0#16, a4 := 0#16, a5 := 0#16 } := by
  cases o <;> decide

theorem valuesZeroFrom_iff (n : Nat) (f : Fields) :
    f.valuesZeroFrom n = true ↔ (0 < n ∨ f.a0 = 0#16) ∧ (1 < n ∨ f.a1 = 0#16) ∧ (2 < n ∨ f.a2 = 0#16) ∧
      (3 < n ∨ f.a3 = 0#16) ∧ (4 < n ∨ f.a4 = 0#16) ∧ (5 < n ∨ f.a5 = 0#16) := by
  simp only [Fields.valuesZeroFrom, Bool.and_eq_true, Bool.or_eq_true, decide_eq_true_eq, beq_iff_eq, and_assoc]

/-- A word has the shape of a row exactly when its opcode is the row's, `rsv` is zero and every field that the row's
format does not use is zero (R61, R72). -/
theorem shape_iff (o : Opcode) (cw : CmdWord) :
    cw &&& formatMask o.format = rowMatch o ↔
      (Fields.ofWord cw).op = o.toBits ∧ (Fields.ofWord cw).rsv = 0#6 ∧
        (o.format.usesInst = true ∨ (Fields.ofWord cw).inst = 0#2) ∧
        (o.format.usesMode = true ∨ (Fields.ofWord cw).mode = 0#3) ∧
        (Fields.ofWord cw).valuesZeroFrom o.format.nValues = true := by
  have h : cw &&& formatMask o.format = rowMatch o ↔
      Fields.ofWord (cw &&& formatMask o.format) = Fields.ofWord (rowMatch o) :=
    ⟨congrArg _, ofWord_injective⟩
  rw [h, ofWord_and, ofWord_formatMask, ofWord_rowMatch, valuesZeroFrom_iff]
  generalize Fields.ofWord cw = f
  simp only [andFields, maskFields, Fields.mk.injEq, and_maskIf, BitVec.and_allOnes, decide_eq_true_eq, Bool.false_eq_true,
    false_or]
  constructor
  · rintro ⟨hop, hinst, hmode, hrsv, hvalues⟩
    exact ⟨hop, hrsv, hinst, hmode, hvalues⟩
  · rintro ⟨hop, hrsv, hinst, hmode, hvalues⟩
    exact ⟨hop, hinst, hmode, hrsv, hvalues⟩

/-- Step 3 of R71 is the shape of the row, but for the reserved modes. -/
theorem fieldsOk_iff (fmt : Format) (f : Fields) :
    f.fieldsOk fmt = true ↔ f.rsv = 0#6 ∧ (fmt.usesInst = true ∨ f.inst = 0#2) ∧
      (fmt.usesMode = true ∨ f.mode = 0#3) ∧ f.valuesZeroFrom fmt.nValues = true ∧
      (fmt.usesMode = true → (Mode.ofBits f.mode).isSome = true) := by
  cases h : fmt.usesMode
  · simp [Fields.fieldsOk, h, and_assoc]
  · simp [Fields.fieldsOk, h, and_assoc]
    tauto

/-! Decoding, step by step. -/

/-- A word with an opcode of the map is decoded by that opcode's steps. -/
theorem decode_of_op {c : Config} {cw : CmdWord} {o : Opcode} (h : (Fields.ofWord cw).op = o.toBits) :
    decode c cw = decodeFields c (Fields.ofWord cw) o := by
  simp [decode, h, opcode_ofBits_toBits]

/-- Where step 3 passes, step 4 gives an operation, and it has the opcode it was decoded for. -/
theorem build_of_fieldsOk {o : Opcode} {f : Fields} (h : f.fieldsOk o.format = true) :
    ∃ i, o.build f = some i ∧ opcodeOf i = some o := by
  have hm : o.format.usesMode = true → ∃ m, Mode.ofBits f.mode = some m := fun hu =>
    Option.isSome_iff_exists.mp (((fieldsOk_iff _ _).mp h).2.2.2.2 hu)
  cases o <;> first
    | exact ⟨_, rfl, rfl⟩
    | (obtain ⟨m, hm⟩ := hm rfl; simp [Opcode.build, hm, opcodeOf])

/-- What steps 2 to 4 answer: an operation where both checks pass, else the code of the first that fails. -/
theorem decodeFields_cases (c : Config) (f : Fields) (o : Opcode) :
    (o.instOk c f.instIdx = false ∧ decodeFields c f o = .reject .badInst) ∨
      (o.instOk c f.instIdx = true ∧ f.fieldsOk o.format = false ∧ decodeFields c f o = .reject .badField) ∨
      (o.instOk c f.instIdx = true ∧ f.fieldsOk o.format = true ∧
        ∃ i, o.build f = some i ∧ opcodeOf i = some o ∧ decodeFields c f o = .op i) := by
  by_cases hinst : o.instOk c f.instIdx = true
  · by_cases hfields : f.fieldsOk o.format = true
    · obtain ⟨i, hi, ho⟩ := build_of_fieldsOk hfields
      exact .inr (.inr ⟨hinst, hfields, i, hi, ho, by simp [decodeFields, hinst, hfields, hi]⟩)
    · exact .inr (.inl ⟨hinst, by simpa using hfields, by simp [decodeFields, hinst, hfields]⟩)
  · exact .inl ⟨by simpa using hinst, by simp [decodeFields, hinst]⟩

end Sys2Proof.Machine
end

