-- ==== Sys2Proof/Laws/PerInstr.lean ====
section
/-! SUPPORT. The families of statements that are made instruction by instruction: the encoded word of every host command
has the shape of its row of the opcode table. -/

namespace Sys2Proof.Laws

open Sys2Proof.Machine

/-- A packed word has a row's shape when every field the format leaves out was packed as zero. -/
theorem shape_packWord {o : Opcode} {n : Inst} {m : BitVec 3} {a0 a1 a2 a3 a4 a5 : Word16}
    (hinst : o.format.usesInst = true ∨ n = 0) (hmode : o.format.usesMode = true ∨ m = 0#3)
    (hvalues : Fields.valuesZeroFrom o.format.nValues
      { op := o.toBits, inst := BitVec.ofNat 2 n.val, mode := m, rsv := 0#6
        a0 := a0, a1 := a1, a2 := a2, a3 := a3, a4 := a4, a5 := a5 } = true) :
    packWord o n m a0 a1 a2 a3 a4 a5 &&& formatMask o.format = rowMatch o := by
  rw [shape_iff, packWord, ofWord_toWord]
  refine ⟨rfl, rfl, hinst.imp id ?_, hmode, hvalues⟩
  rintro rfl
  rfl

/-- Whatever is placed at an interface by a host command is a word of the command's row (R61, R72); the edge step has no
row of words (R56). -/
def EncodedShape.Statement (i : Instr) : Prop :=
  match encode i with
  | .event _ _ => opcodeOf i = none
  | .command cw => ∃ o, opcodeOf i = some o ∧ cw &&& formatMask o.format = rowMatch o

namespace EncodedShape

theorem encStep (port : Channel) (sample : Pair) : Statement (.encStep port sample) := rfl
theorem encRdtick (n : Inst) : Statement (.encRdtick n) := ⟨_, rfl, shape_packWord (.inl rfl) (.inr rfl) rfl⟩
theorem encRderr (n : Inst) : Statement (.encRderr n) := ⟨_, rfl, shape_packWord (.inl rfl) (.inr rfl) rfl⟩
theorem encRdstate (n : Inst) : Statement (.encRdstate n) := ⟨_, rfl, shape_packWord (.inl rfl) (.inr rfl) rfl⟩
theorem spdDiff (new old : Word16) : Statement (.spdDiff new old) :=
  ⟨_, rfl, shape_packWord (.inr rfl) (.inr rfl) rfl⟩
theorem spdSample (n : Inst) : Statement (.spdSample n) := ⟨_, rfl, shape_packWord (.inl rfl) (.inr rfl) rfl⟩
theorem pidSetcfg (n : Inst) (m : Mode) (kp ki kd kw lo hi : Word16) : Statement (.pidSetcfg n m kp ki kd kw lo hi) :=
  ⟨_, rfl, shape_packWord (.inl rfl) (.inl rfl) rfl⟩
theorem pidCompute (n : Inst) (x sp : Word16) : Statement (.pidCompute n x sp) :=
  ⟨_, rfl, shape_packWord (.inl rfl) (.inr rfl) rfl⟩
theorem pidSetmode (n : Inst) (m : Mode) : Statement (.pidSetmode n m) :=
  ⟨_, rfl, shape_packWord (.inl rfl) (.inl rfl) rfl⟩
theorem pidSetkp (n : Inst) (v : Word16) : Statement (.pidSetkp n v) := ⟨_, rfl, shape_packWord (.inl rfl) (.inr rfl) rfl⟩
theorem pidSetki (n : Inst) (v : Word16) : Statement (.pidSetki n v) := ⟨_, rfl, shape_packWord (.inl rfl) (.inr rfl) rfl⟩
theorem pidSetkd (n : Inst) (v : Word16) : Statement (.pidSetkd n v) := ⟨_, rfl, shape_packWord (.inl rfl) (.inr rfl) rfl⟩
theorem pidSetkw (n : Inst) (v : Word16) : Statement (.pidSetkw n v) := ⟨_, rfl, shape_packWord (.inl rfl) (.inr rfl) rfl⟩
theorem pidSetout (n : Inst) (v : Word16) : Statement (.pidSetout n v) :=
  ⟨_, rfl, shape_packWord (.inl rfl) (.inr rfl) rfl⟩
theorem pidSetin (n : Inst) (v : Word16) : Statement (.pidSetin n v) := ⟨_, rfl, shape_packWord (.inl rfl) (.inr rfl) rfl⟩
theorem pidSetsp (n : Inst) (v : Word16) : Statement (.pidSetsp n v) := ⟨_, rfl, shape_packWord (.inl rfl) (.inr rfl) rfl⟩
theorem pidGetkp (n : Inst) : Statement (.pidGetkp n) := ⟨_, rfl, shape_packWord (.inl rfl) (.inr rfl) rfl⟩
theorem pidGetki (n : Inst) : Statement (.pidGetki n) := ⟨_, rfl, shape_packWord (.inl rfl) (.inr rfl) rfl⟩
theorem pidGetkd (n : Inst) : Statement (.pidGetkd n) := ⟨_, rfl, shape_packWord (.inl rfl) (.inr rfl) rfl⟩
theorem pidGetkw (n : Inst) : Statement (.pidGetkw n) := ⟨_, rfl, shape_packWord (.inl rfl) (.inr rfl) rfl⟩
theorem pidGetout (n : Inst) : Statement (.pidGetout n) := ⟨_, rfl, shape_packWord (.inl rfl) (.inr rfl) rfl⟩
theorem pidGetin (n : Inst) : Statement (.pidGetin n) := ⟨_, rfl, shape_packWord (.inl rfl) (.inr rfl) rfl⟩
theorem pidGetsp (n : Inst) : Statement (.pidGetsp n) := ⟨_, rfl, shape_packWord (.inl rfl) (.inr rfl) rfl⟩

end EncodedShape

end Sys2Proof.Laws
end

