-- ==== Sys2Proof/Tests/Slice0.lean ====
section
/-! SUPPORT. The model's own tests. Every expected value is one of spec/95_test_vectors.md (named beside it) or worked out
by hand from the rule named. Then one witness for each obligation that has hypotheses. -/

namespace Sys2Proof.Tests

open Sys2Proof.Machine

/-! ## Helpers -/

/-- The state an operation leaves, where it leaves one. -/
def after (i : Instr) (s : State) : Option State :=
  match exec i s with
  | .next t => some t
  | _ => none

/-- The state a clock cycle leaves, where it leaves one. -/
def afterCycle (c : Cycle) (s : State) : Option State :=
  match step (s.withPins c) with
  | .next t => some t
  | _ => none

/-- The response of an operation. -/
def responseOf (i : Instr) (s : State) : Option Response := (after i s).bind fun t => t.rsp

/-- The response `(0, n)`. -/
def ok (n : Int) : Option Response := some { code := .ok, data := BitVec.ofInt 16 n }

/-- This hardware with another count of PID instances. -/
def withCount (n : PidCount) : Config := { nPid := n, wIsum := .w16 }

/-- The reset machine with decoder 0 as given. -/
def withDecoder (old new : Pair) (ticks errors : Int) : State :=
  State.reset.setEnc 0
    { oldState := old, newState := new, tickCount := BitVec.ofInt 16 ticks, errorCount := BitVec.ofInt 16 errors }

/-- A configured PID instance, everything else zero. -/
def configured (m : Mode) (kp ki kd kw lo hi : Int) : Pid :=
  { Pid.reset with mode := m.toBits, kp := cell16 kp, ki := cell16 ki, kd := cell16 kd, kw := cell16 kw
                   minLimit := cell16 lo, maxLimit := cell16 hi }

/-- The reset machine with PID instance 0 as given. -/
def withPid (c : Pid) : State := State.reset.setPid 0 c

/-- What a compute on instance 0 leaves there: `error`, `d_input`, `integral_sum`, `output`, `saturation_amount`,
`last_input`. -/
def computed (c : Pid) (x sp : Int) : Option (List Int) :=
  (after (.pidCompute 0 (cell16 x) (cell16 sp)) (withPid c)).map fun t =>
    let d := t.pid[(0 : Inst)]
    [sext d.error, sext d.dInput, sextSum d.integralSum, sext d.output, sext d.saturationAmount, sext d.lastInput]

/-- The state the rejected words of V-CMD-2 are tried on. -/
def busy : State :=
  (withDecoder 0b00#2 0b10#2 1 0).setPid 0 (configured .p 1024 0 0 0 (-255) 255)

/-- A word is rejected with the code, and the cycle that presents it changes nothing but the response. -/
def rejects (code : RspCode) (cw : CmdWord) : Bool :=
  decide (afterCycle (.ofCommand cw) busy = some { busy with rsp := some { code := code, data := 0 } })

/-! ## WellFormed: an ill-formed term for each check, and the first one that is well-formed -/

theorem test_wf_refuses_decoder_instance :
    (Instr.encRdtick 2).wf Config.thisHardware = false ∧ (Instr.encRderr 3).wf Config.thisHardware = false ∧
      (Instr.encRdstate 2).wf (withCount .four) = false ∧ (Instr.spdSample 2).wf (withCount .four) = false ∧
      (Instr.encRdtick 1).wf Config.thisHardware = true := by decide

theorem test_wf_refuses_pid_instance :
    (Instr.pidGetkp 2).wf Config.thisHardware = false ∧ (Instr.pidCompute 1 5 5).wf (withCount .one) = false ∧
      (Instr.pidSetmode 3 .off).wf (withCount .three) = false ∧
      (Instr.pidSetmode 3 .off).wf (withCount .four) = true ∧
      (Instr.pidGetkp 1).wf Config.thisHardware = true := by decide

/-! ## Decoding: V-CMD-1, one written word per command, and its encoding back -/

/-- The word decodes to the operation on this hardware, and the operation encodes to the word. -/
def spells (cw : CmdWord) (i : Instr) : Bool :=
  decide (decode Config.thisHardware cw = .op i) && decide (encode i = .command cw) &&
    decide (decodeTableWord 112 cw.toNat = some i)

theorem test_decode_encRdtick : spells 0x0800_0000_0000_0000_0000_0000_0000#112 (.encRdtick 0) = true := by decide
theorem test_decode_encRderr : spells 0x1200_0000_0000_0000_0000_0000_0000#112 (.encRderr 1) = true := by decide
theorem test_decode_encRdstate : spells 0x1A00_0000_0000_0000_0000_0000_0000#112 (.encRdstate 1) = true := by decide
theorem test_decode_spdDiff :
    spells 0x2000_8000_7FFF_0000_0000_0000_0000#112 (.spdDiff (-32768) 32767) = true := by decide
theorem test_decode_spdSample : spells 0x2A00_0000_0000_0000_0000_0000_0000#112 (.spdSample 1) = true := by decide
theorem test_decode_pidSetcfg :
    spells 0x4300_0800_0200_0400_0200_FF01_00FF#112 (.pidSetcfg 1 .pid 2048 512 1024 512 (-255) 255) = true := by decide
theorem test_decode_pidCompute :
    spells 0x4A00_FED4_0005_0000_0000_0000_0000#112 (.pidCompute 1 (-300) 5) = true := by decide
theorem test_decode_pidSetmode :
    spells 0x5340_0000_0000_0000_0000_0000_0000#112 (.pidSetmode 1 .manual) = true := by decide
theorem test_decode_pidSetkp : spells 0x8000_0800_0000_0000_0000_0000_0000#112 (.pidSetkp 0 2048) = true := by decide
theorem test_decode_pidSetki : spells 0x8A00_0100_0000_0000_0000_0000_0000#112 (.pidSetki 1 256) = true := by decide
theorem test_decode_pidSetkd : spells 0x9000_FC00_0000_0000_0000_0000_0000#112 (.pidSetkd 0 (-1024)) = true := by decide
theorem test_decode_pidSetkw : spells 0x9800_0400_0000_0000_0000_0000_0000#112 (.pidSetkw 0 1024) = true := by decide
theorem test_decode_pidSetout : spells 0xA000_0078_0000_0000_0000_0000_0000#112 (.pidSetout 0 120) = true := by decide
theorem test_decode_pidSetin : spells 0xA800_0021_0000_0000_0000_0000_0000#112 (.pidSetin 0 33) = true := by decide
theorem test_decode_pidSetsp : spells 0xB200_FFD8_0000_0000_0000_0000_0000#112 (.pidSetsp 1 (-40)) = true := by decide
theorem test_decode_pidGetkp : spells 0xC000_0000_0000_0000_0000_0000_0000#112 (.pidGetkp 0) = true := by decide
theorem test_decode_pidGetki : spells 0xC800_0000_0000_0000_0000_0000_0000#112 (.pidGetki 0) = true := by decide
theorem test_decode_pidGetkd : spells 0xD000_0000_0000_0000_0000_0000_0000#112 (.pidGetkd 0) = true := by decide
theorem test_decode_pidGetkw : spells 0xD800_0000_0000_0000_0000_0000_0000#112 (.pidGetkw 0) = true := by decide
theorem test_decode_pidGetout : spells 0xE000_0000_0000_0000_0000_0000_0000#112 (.pidGetout 0) = true := by decide
theorem test_decode_pidGetin : spells 0xE800_0000_0000_0000_0000_0000_0000#112 (.pidGetin 0) = true := by decide
theorem test_decode_pidGetsp : spells 0xF200_0000_0000_0000_0000_0000_0000#112 (.pidGetsp 1) = true := by decide

/-- The edge step's table word is the sample (R56, log 9): `10` is A = 1, B = 0. -/
theorem test_decode_encStep :
    decodeTableWord 8 0b10 = some (.encStep 0 0b10#2) ∧ encode (.encStep 1 0b01#2) = .event 1 0b01#2 ∧
      decodePort Config.thisHardware (.event 1 0b01#2) = .op (.encStep 1 0b01#2) := by decide

/-- The six modes by name (R21, R68), in a `PID.SETMODE 0` word. -/
theorem test_decode_modes :
    spells 0x5000_0000_0000_0000_0000_0000_0000#112 (.pidSetmode 0 .off) = true ∧
      spells 0x5040_0000_0000_0000_0000_0000_0000#112 (.pidSetmode 0 .p) = true ∧
      spells 0x5080_0000_0000_0000_0000_0000_0000#112 (.pidSetmode 0 .pi) = true ∧
      spells 0x50C0_0000_0000_0000_0000_0000_0000#112 (.pidSetmode 0 .pd) = true ∧
      spells 0x5100_0000_0000_0000_0000_0000_0000#112 (.pidSetmode 0 .pid) = true ∧
      spells 0x5140_0000_0000_0000_0000_0000_0000#112 (.pidSetmode 0 .manual) = true := by decide

/-- R47's byte order: the sixth row of V-CMD-1 as bytes. -/
theorem test_bytes_big_endian :
    decodeBytes Config.thisHardware
        [0x43, 0x00, 0x08, 0x00, 0x02, 0x00, 0x04, 0x00, 0x02, 0x00, 0xFF, 0x01, 0x00, 0xFF] =
      some (.op (.pidSetcfg 1 .pid 2048 512 1024 512 (-255) 255)) ∧
    ofBytes [0x43, 0x00] = none := by decide

/-! V-CMD-2: the 29 rejected words, on the state they are tried on. -/

theorem test_rejects_reserved_op :
    rejects .reservedOp 0x0000_0000_0000_0000_0000_0000_0000#112 = true ∧
      rejects .reservedOp 0xFFFF_FFFF_FFFF_FFFF_FFFF_FFFF_FFFF#112 = true ∧
      rejects .reservedOp 0x3000_0000_0000_0000_0000_0000_0000#112 = true ∧
      rejects .reservedOp 0x3800_0000_0000_0000_0000_0000_0000#112 = true ∧
      rejects .reservedOp 0x5800_0000_0000_0000_0000_0000_0000#112 = true ∧
      rejects .reservedOp 0x7E00_0000_0000_0000_0000_0000_0000#112 = true ∧
      rejects .reservedOp 0xB800_0005_0000_0000_0000_0000_0000#112 = true := by decide

theorem test_rejects_bad_inst :
    rejects .badInst 0x0C00_0000_0000_0000_0000_0000_0000#112 = true ∧
      rejects .badInst 0x0E00_0000_0000_0000_0000_0000_0000#112 = true ∧
      rejects .badInst 0x2C00_0000_0000_0000_0000_0000_0000#112 = true ∧
      rejects .badInst 0x4C00_0001_0001_0000_0000_0000_0000#112 = true ∧
      rejects .badInst 0x47C0_0001_0002_0003_0004_0005_0006#112 = true ∧
      rejects .badInst 0xC400_0000_0000_0000_0000_0000_0001#112 = true := by decide

theorem test_rejects_bad_field_of_decoder_and_speed :
    rejects .badField 0x0801_0000_0000_0000_0000_0000_0000#112 = true ∧
      rejects .badField 0x0840_0000_0000_0000_0000_0000_0000#112 = true ∧
      rejects .badField 0x1200_0001_0000_0000_0000_0000_0000#112 = true ∧
      rejects .badField 0x1800_0000_0000_0000_0000_0000_8000#112 = true ∧
      rejects .badField 0x2200_0003_0001_0000_0000_0000_0000#112 = true ∧
      rejects .badField 0x2000_0003_0001_0001_0000_0000_0000#112 = true ∧
      rejects .badField 0x2140_0003_0001_0000_0000_0000_0000#112 = true := by decide

theorem test_rejects_bad_field_of_pid :
    rejects .badField 0x5180_0000_0000_0000_0000_0000_0000#112 = true ∧
      rejects .badField 0x51C0_0000_0000_0000_0000_0000_0000#112 = true ∧
      rejects .badField 0x5080_0001_0000_0000_0000_0000_0000#112 = true ∧
      rejects .badField 0x4180_0001_0002_0003_0004_0005_0006#112 = true ∧
      rejects .badField 0x4060_0001_0002_0003_0004_0005_0006#112 = true ∧
      rejects .badField 0x4840_0005_0005_0000_0000_0000_0000#112 = true ∧
      rejects .badField 0x4800_0005_0005_0001_0000_0000_0000#112 = true ∧
      rejects .badField 0x8000_0007_0001_0000_0000_0000_0000#112 = true ∧
      rejects .badField 0xE200_0000_0000_0000_FFFF_0000_0000#112 = true := by decide

/-- The end of V-CMD-2: the eleventh and twelfth word on machines with more PID instances. -/
theorem test_decode_follows_the_instance_count :
    decode (withCount .three) 0x4C00_0001_0001_0000_0000_0000_0000#112 = .op (.pidCompute 2 1 1) ∧
      decode (withCount .three) 0x47C0_0001_0002_0003_0004_0005_0006#112 = .reject .badInst ∧
      decode (withCount .four) 0x47C0_0001_0002_0003_0004_0005_0006#112 = .reject .badField := by decide

/-- R58: the two bits of each response code. -/
theorem test_response_codes :
    RspCode.toBits .ok = 0b00#2 ∧ RspCode.toBits .reservedOp = 0b01#2 ∧ RspCode.toBits .badInst = 0b10#2 ∧
      RspCode.toBits .badField = 0b11#2 := by decide

/-! ## The decoder -/

/-- V-ENC-0: what one step leaves: `old_state`, `new_state`, `tick_count`, `error_count`. -/
def stepped (before s : Pair) : Option Decoder :=
  (after (.encStep 0 s) (withDecoder 0b11#2 before 10 3)).map fun t => t.enc[(0 : Channel)]

/-- All sixteen rows of V-ENC-0. -/
theorem test_encStep_all_pairs :
    stepped 0b00#2 0b00#2 = some ⟨0b00#2, 0b00#2, 10#16, 4#16⟩ ∧
      stepped 0b00#2 0b01#2 = some ⟨0b00#2, 0b01#2, 9#16, 3#16⟩ ∧
      stepped 0b00#2 0b10#2 = some ⟨0b00#2, 0b10#2, 11#16, 3#16⟩ ∧
      stepped 0b00#2 0b11#2 = some ⟨0b00#2, 0b11#2, 10#16, 4#16⟩ ∧
      stepped 0b01#2 0b00#2 = some ⟨0b01#2, 0b00#2, 11#16, 3#16⟩ ∧
      stepped 0b01#2 0b01#2 = some ⟨0b01#2, 0b01#2, 10#16, 4#16⟩ ∧
      stepped 0b01#2 0b10#2 = some ⟨0b01#2, 0b10#2, 10#16, 4#16⟩ ∧
      stepped 0b01#2 0b11#2 = some ⟨0b01#2, 0b11#2, 9#16, 3#16⟩ ∧
      stepped 0b10#2 0b00#2 = some ⟨0b10#2, 0b00#2, 9#16, 3#16⟩ ∧
      stepped 0b10#2 0b01#2 = some ⟨0b10#2, 0b01#2, 10#16, 4#16⟩ ∧
      stepped 0b10#2 0b10#2 = some ⟨0b10#2, 0b10#2, 10#16, 4#16⟩ ∧
      stepped 0b10#2 0b11#2 = some ⟨0b10#2, 0b11#2, 11#16, 3#16⟩ ∧
      stepped 0b11#2 0b00#2 = some ⟨0b11#2, 0b00#2, 10#16, 4#16⟩ ∧
      stepped 0b11#2 0b01#2 = some ⟨0b11#2, 0b01#2, 11#16, 3#16⟩ ∧
      stepped 0b11#2 0b10#2 = some ⟨0b11#2, 0b10#2, 9#16, 3#16⟩ ∧
      stepped 0b11#2 0b11#2 = some ⟨0b11#2, 0b11#2, 10#16, 4#16⟩ := by decide

/-- V-ENC-5: the counters wrap. -/
theorem test_encStep_wraps :
    (after (.encStep 0 0b10#2) (withDecoder 0 0b00#2 32767 7)).map (·.enc[(0 : Channel)]) =
        some ⟨0b00#2, 0b10#2, 0x8000#16, 7#16⟩ ∧
      (after (.encStep 0 0b01#2) (withDecoder 0 0b00#2 (-32768) 7)).map (·.enc[(0 : Channel)]) =
        some ⟨0b00#2, 0b01#2, 0x7FFF#16, 7#16⟩ ∧
      (after (.encStep 0 0b11#2) (withDecoder 0 0b00#2 5 65535)).map (·.enc[(0 : Channel)]) =
        some ⟨0b00#2, 0b11#2, 5#16, 0#16⟩ := by decide

/-- V-ENC-8: the reads after V-ENC-3. -/
theorem test_encRdtick :
    responseOf (.encRdtick 0) (withDecoder 0b01#2 0b11#2 4 2) = ok 4 ∧
      responseOf (.encRdtick 1) (withDecoder 0b01#2 0b11#2 4 2) = ok 0 := by decide
theorem test_encRderr : responseOf (.encRderr 0) (withDecoder 0b01#2 0b11#2 4 2) = ok 2 := by decide
theorem test_encRdstate : responseOf (.encRdstate 0) (withDecoder 0b01#2 0b11#2 4 2) = ok 7 := by decide

/-- V-ENC-9: the edge step is ordered before the read of the same cycle. -/
theorem test_event_before_command_in_one_cycle :
    (afterCycle { rst := false, evt := #v[some 0b10#2, none], cmd := some 0x0800_0000_0000_0000_0000_0000_0000#112 }
      (withDecoder 0 0b00#2 5 0)).bind (·.rsp) = ok 6 := by decide

/-! ## The speed estimator -/

/-- V-SPD-1: rows 2, 6, 9 and 13. -/
theorem test_spdDiff :
    responseOf (.spdDiff 100 105) State.reset = ok (-5) ∧ responseOf (.spdDiff (-32768) 32767) State.reset = ok 1 ∧
      responseOf (.spdDiff (-30000) 30000) State.reset = ok 5536 ∧
      responseOf (.spdDiff (-32768) 1) State.reset = ok 32767 := by decide

/-- V-SPD-3: sampling across the counter's wrap. -/
theorem test_spdSample :
    let s := (withDecoder 0 0b00#2 (-32766) 0).setPrev 0 32766
    responseOf (.spdSample 0) s = ok 4 ∧
      (after (.spdSample 0) s).map (fun t => sext t.spd[(0 : Channel)].prevCount) = some (-32766) := by decide

/-! ## Saturating arithmetic -/

/-- V-SAT-1, rows of each primitive. -/
theorem test_primitives_saturate :
    ssadd 16 32000 32000 = 32767 ∧ ssadd 16 (-32768) (-1) = -32768 ∧ ssadd 16 32767 (-1) = 32766 ∧
      sssub 16 0 (-32768) = 32767 ∧ sssub 16 (-32000) 32000 = -32768 ∧ ssmul 16 (-32768) (-1) = 32767 ∧
      ssmul 16 256 (-128) = -32768 ∧ ssmul 16 181 181 = 32761 ∧ ssadd 32 2000000000 2000000000 = 2147483647 ∧
      sssub 32 0 (-2147483648) = 2147483647 ∧ ssmul 32 65536 (-65536) = -2147483648 ∧
      ssmul 32 46340 46340 = 2147395600 := by decide

/-- V-SAT-2, and V-SAT-3 with a 32-bit second operand. -/
theorem test_division_and_scaled_multiply :
    ssdiv 16 (-7) 2 = -3 ∧ ssdiv 16 7 (-2) = -3 ∧ ssdiv 16 (-32768) (-1) = 32767 ∧ ssdiv 16 1 (-32768) = 0 ∧
      ssdiv 32 (-1025) 1024 = -1 ∧ gmul 512 (-401) = -200 ∧ gmul 1 (-1025) = -1 ∧ gmul 1536 (-3) = -4 ∧
      gmul (-32768) (-32768) = 1048576 ∧ gmul 1024 2097152 = 2097151 ∧ gmul (-32768) 65537 = -2097152 := by decide

/-! ## The PID controller -/

/-- V-PID-4 row 5 and the second row of V-PID-3 a: mode PID and PI with anti-windup. -/
theorem test_pidCompute_antiwindup :
    computed { configured .pid 2048 512 1024 512 (-255) 255 with
        lastInput := cell16 (-300), integralSum := cellSum (-300), saturationAmount := cell16 (-785) } (-300) 5 =
      some [-305, 0, -213, -255, -461, -300] ∧
    computed { configured .pi 512 256 0 1024 (-100) 100 with
        lastInput := 400, integralSum := 400, saturationAmount := 200 } 400 0 =
      some [400, 0, 600, 100, 250, 400] := by decide

/-- The other modes and the order of the limits: the Scenario (V-PID-1), V-PID-4b row 3, V-PID-5 (OFF that excludes 0;
row 8, MANUAL), V-PID-8 row 1, V-PID-7 first row. -/
theorem test_pidCompute_modes :
    computed { configured .p 1024 0 0 0 (-255) 255 with lastInput := 50, integralSum := 50 } 500 0 =
      some [500, 450, 550, 255, 245, 500] ∧
    computed { configured .pd 1024 0 2048 0 (-255) 255 with lastInput := 10, integralSum := 20 } 20 10 =
      some [10, 10, 30, 30, 0, 20] ∧
    computed (configured .off 0 0 0 0 10 100) 5 5 = some [0, 5, 0, 10, -10, 5] ∧
    computed { configured .manual 1024 1024 1024 1024 (-255) 255 with
        lastInput := 300, integralSum := 598, output := 400 } 0 0 = some [0, -300, 598, 255, 145, 0] ∧
    computed (configured .p 1024 0 0 0 50 (-50)) 0 0 = some [0, 0, 0, -50, 50, 0] ∧
    computed (configured .p (-32768) 0 0 0 (-32768) 32767) (-32768) 0 =
      some [-32768, -32768, -32768, 32767, 32767, -32768] := by decide

/-- V-PID-7 with `W_ISUM = 32`, second step. -/
theorem test_pidCompute_wide_accumulator :
    let s := (State.resetWith { nPid := .two, wIsum := .w32 }).setPid 1
      { configured .pi 0 1024 0 0 (-32768) 32767 with lastInput := 32767, integralSum := 32767 }
    (after (.pidCompute 1 32767 0) s).map (fun t =>
        (sextSum t.pid[(1 : Inst)].integralSum, sext t.pid[(1 : Inst)].output,
          sext t.pid[(1 : Inst)].saturationAmount)) = some (65534, 32767, 32767) := by decide

/-- R187: an illegal mode cell is fatal. -/
theorem test_pidCompute_illegal_mode :
    exec (.pidCompute 0 1 2) (withPid { Pid.reset with mode := 6 }) = .fault (.illegalMode 0) := by rfl

/-- R131: the configuration is replaced, `integral_sum` is zeroed, the rest is kept. -/
theorem test_pidSetcfg :
    (after (.pidSetcfg 0 .p 1 2 3 4 5 (-6))
        (withPid { configured .pid 9 9 9 9 9 9 with output := 50, lastInput := 40, integralSum := 120 })).map
        (·.pid[(0 : Inst)]) =
      some { configured .p 1 2 3 4 5 (-6) with output := 50, lastInput := 40, integralSum := 0 } := by decide

/-- R132: also when the mode does not change. -/
theorem test_pidSetmode :
    (after (.pidSetmode 0 .pi) (withPid { configured .pi 1 2 3 4 5 6 with integralSum := 120, output := 7 })).map
        (·.pid[(0 : Inst)]) =
      some { configured .pi 1 2 3 4 5 6 with integralSum := 0, output := 7 } := by decide

/-- Each setter writes its one cell (V-PID-9, R142 to R148). -/
theorem test_setters :
    let cell := fun i => (after i (withPid (configured .p 1 2 3 4 5 6))).map (·.pid[(0 : Inst)])
    let c := configured .p 1 2 3 4 5 6
    cell (.pidSetkp 0 (-9)) = some { c with kp := -9 } ∧ cell (.pidSetki 0 (-9)) = some { c with ki := -9 } ∧
      cell (.pidSetkd 0 (-9)) = some { c with kd := -9 } ∧ cell (.pidSetkw 0 (-9)) = some { c with kw := -9 } ∧
      cell (.pidSetout 0 400) = some { c with output := 400 } ∧ cell (.pidSetin 0 33) = some { c with input := 33 } ∧
      cell (.pidSetsp 0 (-40)) = some { c with setpoint := -40 } := by decide

/-- Each getter answers its one cell (V-PID-9, R149 to R155). -/
theorem test_getters :
    let s := withPid { configured .p 1 (-2) (-1024) 4 5 6 with input := 33, setpoint := -40, output := 120 }
    responseOf (.pidGetkp 0) s = ok 1 ∧ responseOf (.pidGetki 0) s = ok (-2) ∧ responseOf (.pidGetkd 0) s = ok (-1024) ∧
      responseOf (.pidGetkw 0) s = ok 4 ∧ responseOf (.pidGetout 0) s = ok 120 ∧ responseOf (.pidGetin 0) s = ok 33 ∧
      responseOf (.pidGetsp 0) s = ok (-40) ∧ responseOf (.pidGetkd 1) s = ok 0 := by decide

/-! ## The cycle, reset and the table's words -/

/-- V-CMD-3: reset wins over the event and the command of its cycle. -/
theorem test_reset_wins :
    afterCycle { rst := true, evt := #v[some 0b10#2, none], cmd := some 0x0800_0000_0000_0000_0000_0000_0000#112 } busy =
      some State.reset := by decide

/-- The first step after reset runs the word placed for it (log 9). -/
theorem test_withFetchWord :
    step (State.reset.withFetchWord 112 0x2000_0007_FFFE_0000_0000_0000_0000) =
        .next (State.reset.respond 9) ∧
      (match step (State.reset.withFetchWord 8 0b10) with
        | .next t => decide (sext t.enc[(0 : Channel)].tickCount = 1)
        | _ => false) = true :=
  ⟨by rfl, by decide⟩

/-! ## Witnesses: for each obligation with hypotheses, a state and operands that meet all of them -/

/-- The reset machine with one command presented. -/
def presenting (cw : CmdWord) : State := State.reset.withPins (.ofCommand cw)

theorem witness_DecodeOfEncodedOperation :
    (Instr.encStep 1 0b11#2).wf Config.thisHardware = true ∧ (Instr.encRderr 1).wf (withCount .one) = true ∧
      (Instr.pidSetcfg 1 .manual 1 2 3 4 5 6).wf Config.thisHardware = true ∧
      (Instr.pidGetsp 3).wf (withCount .four) = true := by decide

theorem witness_AcceptedWordIsTheEncoding :
    decode (withCount .four) 0x4740_8000_FFFF_7FFF_0001_0000_0002#112 =
      .op (.pidSetcfg 3 .manual (-32768) (-1) 32767 1 0 2) := by decide

theorem witness_ReservedOpcodesAreRejected :
    (presenting 0xFFFF_FFFF_FFFF_FFFF_FFFF_FFFF_FFFF#112).pins =
        .ofCommand 0xFFFF_FFFF_FFFF_FFFF_FFFF_FFFF_FFFF#112 ∧
      ((0xFFFF_FFFF_FFFF_FFFF_FFFF_FFFF_FFFF#112).extractLsb' 107 5).toNat ∈
        [0x00, 0x06, 0x07, 0x0B, 0x0C, 0x0D, 0x0E, 0x0F, 0x17, 0x1F] := by decide

/-- A word of each of the three lists; instance 2 is the first reserved one of `ENC.RDTICK`, and instance 1 of
`SPD.DIFF`. -/
theorem witness_ReservedInstancesAreRejected :
    ((0x0C00_0000_0000_0000_0000_0000_0000#112).extractLsb' 107 5).toNat ∈ [0x01, 0x02, 0x03, 0x05] ∧
      ((0xF400_0000_0000_0000_0000_0000_0000#112).extractLsb' 107 5).toNat ∈
        [0x08, 0x09, 0x0A, 0x10, 0x11, 0x12, 0x13, 0x14, 0x15, 0x16, 0x18, 0x19, 0x1A, 0x1B, 0x1C, 0x1D, 0x1E] ∧
      ((0x2200_0000_0000_0000_0000_0000_0000#112).extractLsb' 107 5).toNat = 0x04 ∧
      (0x2200_0000_0000_0000_0000_0000_0000#112).extractLsb' 105 2 ≠ 0#2 := by decide

/-- `PID.SETMODE 1` with the reserved mode 6, the lowest one; and a step from a state with a legal mode. -/
theorem witness_ReservedModesAreRejected :
    ((presenting 0x5380_0000_0000_0000_0000_0000_0000#112).pins =
        .ofCommand 0x5380_0000_0000_0000_0000_0000_0000#112 ∧
      ((0x5380_0000_0000_0000_0000_0000_0000#112).extractLsb' 107 5).toNat ∈ [0x08, 0x0A] ∧
      ((0x5380_0000_0000_0000_0000_0000_0000#112).extractLsb' 105 2).toNat < State.reset.cfg.nPid.toNat ∧
      6 ≤ ((0x5380_0000_0000_0000_0000_0000_0000#112).extractLsb' 102 3).toNat) ∧
    (presenting 0x5340_0000_0000_0000_0000_0000_0000#112).pid[(1 : Inst)].mode.toNat < 6 ∧
      ∃ t, step (presenting 0x5340_0000_0000_0000_0000_0000_0000#112) = .next t :=
  ⟨by decide, by decide, ⟨_, rfl⟩⟩

/-- `PID.GETOUT 1` with `a3 = 0xFFFF`. -/
theorem witness_NonzeroUnusedFieldIsRejected :
    (0xE200_0000_0000_0000_FFFF_0000_0000#112).extractLsb' 107 5 = Opcode.toBits .pidGetout ∧
      0xE200_0000_0000_0000_FFFF_0000_0000#112 &&& formatMask (Opcode.format .pidGetout) ≠ rowMatch .pidGetout ∧
      Opcode.instOk State.reset.cfg (Fields.ofWord 0xE200_0000_0000_0000_FFFF_0000_0000#112).instIdx .pidGetout =
        true ∧
      (presenting 0xE200_0000_0000_0000_FFFF_0000_0000#112).pins =
        .ofCommand 0xE200_0000_0000_0000_FFFF_0000_0000#112 := by decide

theorem witness_RejectionReportsTheLowestCode :
    Opcode.ofBits ((0x7E00_0000_0000_0000_0000_0000_0000#112).extractLsb' 107 5) = none ∧
      Opcode.instOk Config.thisHardware (Fields.ofWord 0xC400_0000_0000_0000_0000_0000_0001#112).instIdx .pidGetkp =
        false ∧
      6 ≤ ((0x5180_0000_0000_0000_0000_0000_0000#112).extractLsb' 102 3).toNat ∧
      ∃ t, exec (.encStep 0 0b10#2) (State.reset.respond 7) = .next t :=
  ⟨by decide, by decide, by decide, ⟨_, rfl⟩⟩

theorem witness_StepRunsThePresentedOperation :
    (presenting 0x4800_01F4_0000_0000_0000_0000_0000#112).pins =
        .ofCommand 0x4800_01F4_0000_0000_0000_0000_0000#112 ∧
      decode (presenting 0x4800_01F4_0000_0000_0000_0000_0000#112).cfg 0x4800_01F4_0000_0000_0000_0000_0000#112 =
        .op (.pidCompute 0 500 0) ∧
      (State.reset.withPins (.ofEvent 1 0b10#2)).pins = .ofEvent 1 0b10#2 := by decide

theorem witness_RejectedWordChangesNothing :
    (presenting 0#112).pins = .ofCommand 0#112 ∧ decode (presenting 0#112).cfg 0#112 = .reject .reservedOp := by decide

theorem witness_ResetCycleClearsEveryField :
    (busy.withPins { rst := true, evt := #v[some 0b11#2, none], cmd := some 0#112 }).pins.rst = true := by decide

/-- No cycle presented, and an idle cycle presented. -/
theorem witness_IdleCycleChangesNothing : busy.pins = .idle ∧ (busy.withPins .idle).pins = .idle := by decide

theorem witness_CycleIsTheSequenceOfItsOperations :
    (busy.withPins { rst := false, evt := #v[some 0b11#2, some 0b01#2]
                     cmd := some 0x2800_0000_0000_0000_0000_0000_0000#112 }).inputs =
      { rst := false, evt := #v[some 0b11#2, some 0b01#2]
        cmd := some 0x2800_0000_0000_0000_0000_0000_0000#112 } :: [] := by decide

/-- An event on channel 0 and none on channel 1, while the host computes. -/
theorem witness_EdgeEventsExecuteWhateverTheHostDoes :
    let s := busy.withPins { rst := false, evt := #v[some 0b11#2, none]
                             cmd := some 0x4800_01F4_0000_0000_0000_0000_0000#112 }
    s.pins.rst = false ∧ (∃ t, step s = .next t) ∧ s.pins.evt[(0 : Channel)] = some 0b11#2 ∧
      s.pins.evt[(1 : Channel)] = none :=
  ⟨by decide, ⟨_, rfl⟩, by decide, by decide⟩

theorem witness_StepKeepsParametersAndTakesOneCycle :
    ∃ t, step (presenting 0x5340_0000_0000_0000_0000_0000_0000#112) = .next t := ⟨_, rfl⟩

/-- A legal state that is not the reset state, with a step from it. -/
theorem witness_EveryStepKeepsTheStateLegal :
    (busy.withPins (.ofCommand 0x4800_01F4_0000_0000_0000_0000_0000#112)).Inv ∧
      ∃ t, step (busy.withPins (.ofCommand 0x4800_01F4_0000_0000_0000_0000_0000#112)) = .next t :=
  ⟨⟨by decide, by decide⟩, ⟨_, rfl⟩⟩

theorem witness_LegalMachineNeverStops :
    (busy.withPins (.ofCommand 0x4800_01F4_0000_0000_0000_0000_0000#112)).Inv := ⟨by decide, by decide⟩

theorem witness_OnlyAnIllegalModeFaults :
    step ((withPid { Pid.reset with mode := 7 }).withPins
      (.ofCommand 0x4800_01F4_0000_0000_0000_0000_0000#112)) = .fault (.illegalMode 0) := by rfl

/-- The double change and the same-state event from `00`. -/
theorem witness_IllegalTransitionCountsOneError :
    let s := withDecoder 0b11#2 0b00#2 10 65535
    (0b11#2 ≠ nextClockwise s.enc[(0 : Channel)].newState ∧
      0b11#2 ≠ nextCounterClockwise s.enc[(0 : Channel)].newState) ∧
    0b00#2 ≠ nextClockwise s.enc[(0 : Channel)].newState ∧
      0b00#2 ≠ nextCounterClockwise s.enc[(0 : Channel)].newState := by decide

/-- An edge step of the other channel, and a host command. -/
theorem witness_OldStateIsThePreviousNewState :
    (∀ ab, Instr.encStep 1 0b10#2 ≠ .encStep 0 ab) ∧ (∃ t, exec (.encStep 1 0b10#2) busy = .next t) ∧
      (∀ ab, Instr.pidGetkp 0 ≠ .encStep 0 ab) ∧ ∃ t, exec (.pidGetkp 0) busy = .next t :=
  ⟨fun _ => by decide +revert, ⟨_, rfl⟩, fun _ => by decide +revert, ⟨_, rfl⟩⟩

theorem witness_OnlyEdgeStepsWriteDecoders :
    (isEdgeStep (.spdSample 0) = false ∧ ∃ t, exec (.spdSample 0) busy = .next t) ∧
      ∃ t, exec (.encStep 0 0b11#2) busy = .next t := ⟨⟨by decide, ⟨_, rfl⟩⟩, ⟨_, rfl⟩⟩

/-- The opcodes 1, 2 and 3, with the last good and the first reserved instance. -/
theorem witness_DecoderReadsAnswerTheCells :
    ((0x0A00_0000_0000_0000_0000_0000_0000#112).extractLsb' 107 5).toNat = 0x01 ∧
      ((0x1200_0000_0000_0000_0000_0000_0000#112).extractLsb' 107 5).toNat = 0x02 ∧
      ((0x1C00_0000_0000_0000_0000_0000_0000#112).extractLsb' 107 5).toNat = 0x03 ∧
      (1 : Inst).val = (1 : Channel).val := by decide

theorem witness_SpeedDiffAnswersTheModularDifference :
    ((0x2000_8000_7FFF_0000_0000_0000_0000#112).extractLsb' 107 5).toNat = 0x04 := by decide

/-- The two ends of the exact range and a movement beyond it. -/
theorem witness_SpeedIsExactAcrossAWrap :
    ((32766 : Word16).toInt = wrap16 ((-1 : Word16).toInt + 32767) ∧ (-32768 : Int) ≤ 32767 ∧ (32767 : Int) ≤ 32767) ∧
      ((-32768 : Word16).toInt = wrap16 ((0 : Word16).toInt + -32768) ∧ (-32768 : Int) ≤ -32768) ∧
      (-25536 : Word16).toInt = wrap16 ((0 : Word16).toInt + 40000) := by decide

theorem witness_SpeedSampleKeepsTheSnapshot :
    ((0x2A00_0000_0000_0000_0000_0000_0000#112).extractLsb' 107 5).toNat = 0x05 ∧
      (1 : Inst).val = (1 : Channel).val := by decide

/-- V-SPD-2 in short: a step, a sample, a step back, a sample. -/
theorem witness_SamplesAddUpToTheSnapshot :
    (0 : Inst).val = (0 : Channel).val ∧
      ∃ t, runOps [.encStep 0 0b11#2, .spdSample 0, .encStep 0 0b10#2, .spdSample 0] busy = .next t :=
  ⟨by decide, ⟨_, rfl⟩⟩

theorem witness_OnlySampleWritesTheSnapshot :
    ∃ t, exec (.spdSample 0) busy = .next t ∧ t.spd[(0 : Channel)] ≠ busy.spd[(0 : Channel)] :=
  ⟨_, rfl, by decide⟩

/-- Two positive operands overflow. -/
theorem witness_SaturatingAdditionLimitsTheSum :
    minOf 16 ≤ 32767 ∧ 32767 ≤ maxOf 16 ∧ minOf 16 ≤ 1 ∧ 1 ≤ maxOf 16 ∧ ssadd 16 32767 1 ≠ 32767 + 1 := by decide

/-- Operands of opposite signs overflow; the first operand 0 is the least one of the second clause. -/
theorem witness_SaturatingSubtractionLimitsTheDifference :
    (minOf 16 ≤ 32767 ∧ 32767 ≤ maxOf 16 ∧ minOf 16 ≤ -1 ∧ -1 ≤ maxOf 16 ∧ sssub 16 32767 (-1) ≠ 32767 - -1) ∧
      minOf 16 ≤ 0 ∧ 0 ≤ maxOf 16 ∧ (0 : Int) ≤ 0 := by decide

/-- The one overflow, and a quotient beside it. -/
theorem witness_SaturatingDivisionOverflowsOnlyAtMin :
    (minOf 16 ≤ -32768 ∧ -32768 ≤ maxOf 16 ∧ minOf 16 ≤ -1 ∧ -1 ≤ maxOf 16 ∧ (-1 : Int) ≠ 0 ∧
      (-32768 = minOf 16 ∧ (-1 : Int) = -1)) ∧
    minOf 16 ≤ -32767 ∧ -32767 ≤ maxOf 16 ∧ -32767 ≠ minOf 16 := by decide

/-- The last product that is cut to 0. -/
theorem witness_ScaledMultiplyIsExactAndBounded : ((3 : Word16).toInt * (-341 : Word16).toInt).natAbs < 1024 := by decide

theorem witness_ScaledMultiplyIsOdd : (-32767 : Word16) ≠ -32768 ∧ (32767 : Word16) ≠ -32768 := by decide

/-- `PID.SETCFG` on the last instance, on the first absent one, with the last legal and the first reserved mode. -/
theorem witness_SetcfgReplacesTheConfiguration :
    ((0x4340_0001_0002_0003_0004_0005_0006#112).extractLsb' 107 5).toNat = 0x08 ∧
      State.reset.cfg.nPid.toNat ≤ ((0x4400_0001_0002_0003_0004_0005_0006#112).extractLsb' 105 2).toNat ∧
      ((0x4340_0001_0002_0003_0004_0005_0006#112).extractLsb' 105 2).toNat < State.reset.cfg.nPid.toNat ∧
      6 ≤ ((0x4380_0001_0002_0003_0004_0005_0006#112).extractLsb' 102 3).toNat ∧
      0x4340_0001_0002_0003_0004_0005_0006#112 &&& formatMask (Opcode.format .pidSetcfg) = rowMatch .pidSetcfg ∧
      (0x4340_0001_0002_0003_0004_0005_0006#112).extractLsb' 102 3 = Mode.toBits .manual ∧
      (1 : Inst).val < busy.cfg.nPid.toNat := by decide

theorem witness_SetmodeZeroesTheAccumulator :
    ((0x5340_0000_0000_0000_0000_0000_0000#112).extractLsb' 107 5).toNat = 0x0A ∧
      State.reset.cfg.nPid.toNat ≤ ((0x5400_0000_0000_0000_0000_0000_0000#112).extractLsb' 105 2).toNat ∧
      6 ≤ ((0x5380_0000_0000_0000_0000_0000_0000#112).extractLsb' 102 3).toNat ∧
      0x5340_0000_0000_0000_0000_0000_0000#112 &&& formatMask (Opcode.format .pidSetmode) = rowMatch .pidSetmode ∧
      (0x5340_0000_0000_0000_0000_0000_0000#112).extractLsb' 102 3 = Mode.toBits .manual ∧
      (1 : Inst).val < busy.cfg.nPid.toNat := by decide

/-- The first and the last of the seven opcodes; the last instance of four. -/
theorem witness_SettersWriteOneCell :
    ((0x8000_0800_0000_0000_0000_0000_0000#112).extractLsb' 107 5).toNat = 0x10 ∧
      ((0xB200_FFD8_0000_0000_0000_0000_0000#112).extractLsb' 107 5).toNat = 0x16 ∧
      (1 : Inst).val < busy.cfg.nPid.toNat ∧ (3 : Inst).val < (State.resetWith (withCount .four)).cfg.nPid.toNat := by
  decide

theorem witness_GettersAnswerOneCell :
    ((0xC000_0000_0000_0000_0000_0000_0000#112).extractLsb' 107 5).toNat = 0x18 ∧
      ((0xF200_0000_0000_0000_0000_0000_0000#112).extractLsb' 107 5).toNat = 0x1E ∧
      (1 : Inst).val < busy.cfg.nPid.toNat ∧ (3 : Inst).val < (State.resetWith (withCount .four)).cfg.nPid.toNat := by
  decide

theorem witness_OperationOnAbsentInstanceIsRejected :
    (Instr.pidCompute 2 1 1).wf busy.cfg = false ∧ (Instr.encRdstate 2).wf busy.cfg = false := by decide

/-- `PID.SETKP` on the instance, asked about its accumulator; a compute on the other instance. -/
theorem witness_PidCellsHaveOnlyTheirWriters :
    ((∃ t, exec (.pidSetkp 0 9) busy = .next t) ∧ mayWrite 0 .integralSum (.pidSetkp 0 9) = false) ∧
      (∃ t, exec (.pidCompute 1 9 9) busy = .next t) ∧ mayWrite 0 .output (.pidCompute 1 9 9) = false :=
  ⟨⟨⟨_, rfl⟩, by decide⟩, ⟨_, rfl⟩, by decide⟩

/-- Two machines that agree on instance 0 alone. -/
theorem witness_PidCommandsDependOnTheirInstanceAlone :
    let other := (busy.setEnc 1 ⟨0, 1, 2, 3⟩).setPid 1 (configured .pid 1 2 3 4 5 6)
    pidOperand (.pidCompute 0 500 0) = some 0 ∧ busy.cfg = other.cfg ∧ busy.pid[(0 : Inst)] = other.pid[(0 : Inst)] ∧
      ∃ t, exec (.pidCompute 0 500 0) busy = .next t :=
  ⟨by decide, by decide, by decide, ⟨_, rfl⟩⟩

/-- The opcode 9; each of the six modes on some state. -/
theorem witness_ComputeFollowsTheControlLaw :
    ((0x4A00_FED4_0005_0000_0000_0000_0000#112).extractLsb' 107 5).toNat = 0x09 ∧
      (0 : Inst).val < State.reset.cfg.nPid.toNat ∧ (1 : Inst).val < State.reset.cfg.nPid.toNat ∧
      ∀ m ∈ [Mode.off, .p, .pi, .pd, .pid, .manual],
        (withPid (configured m 1 2 3 4 5 6)).pid[(0 : Inst)].mode = m.toBits := by decide

theorem witness_ComputeInAnIllegalModeFaults :
    (0 : Inst).val < State.reset.cfg.nPid.toNat ∧
      6 ≤ (withPid { Pid.reset with mode := 6 }).pid[(0 : Inst)].mode.toNat := by decide

/-- Limits that meet, and an illegal-looking accumulator. -/
theorem witness_ComputedOutputLiesWithinTheLimits :
    let s := withPid { configured .pid 1 2 3 4 7 7 with integralSum := 0x80000000 }
    (0 : Inst).val < s.cfg.nPid.toNat ∧ s.pid[(0 : Inst)].mode.toNat < 6 ∧
      s.pid[(0 : Inst)].minLimit.toInt ≤ s.pid[(0 : Inst)].maxLimit.toInt := by decide

/-- V-PID-6 a, with a used machine: mode PI with `Kw = 0`; mode PD with `last_input = 0`; mode MANUAL with an output
that clamps as 0 does. -/
theorem witness_ReconfiguredControllerMatchesAFreshOne :
    let c := { configured .p 1 2 3 4 5 6 with integralSum := 120, saturationAmount := 400, output := -50 }
    (0 : Inst).val < (withPid c).cfg.nPid.toNat ∧
      gmul (0 : Word16).toInt (withPid c).pid[(0 : Inst)].saturationAmount.toInt = 0 ∧
      gmul (1024 : Word16).toInt (sssub 16 (30 : Word16).toInt (withPid c).pid[(0 : Inst)].lastInput.toInt) =
        gmul (1024 : Word16).toInt (30 : Word16).toInt ∧
      clampTo (10 : Word16).toInt (100 : Word16).toInt (withPid c).pid[(0 : Inst)].output.toInt =
        clampTo (10 : Word16).toInt (100 : Word16).toInt 0 := by decide

theorem witness_OffComputesZeroClamped :
    (0 : Inst).val < (withPid (configured .off 1 2 3 4 10 100)).cfg.nPid.toNat ∧
      (withPid (configured .off 1 2 3 4 10 100)).pid[(0 : Inst)].mode = 0#3 := by decide

/-- The value is the upper limit itself. -/
theorem witness_ManualHoldsTheSetOutput :
    let s := withPid (configured .manual 1 2 3 4 (-255) 255)
    (0 : Inst).val < s.cfg.nPid.toNat ∧ s.pid[(0 : Inst)].mode = 5#3 ∧
      s.pid[(0 : Inst)].minLimit.toInt ≤ (255 : Word16).toInt ∧
      (255 : Word16).toInt ≤ s.pid[(0 : Inst)].maxLimit.toInt := by decide

/-- A clamped compute, then commands that leave the clamp's record. -/
theorem witness_ClampRecordHoldsUntilRewritten :
    (0 : Inst).val < busy.cfg.nPid.toNat ∧
      (∃ t u, exec (.pidCompute 0 500 0) busy = .next t ∧
        runOps [.pidSetkp 0 7, .encStep 0 0b11#2, .pidSetmode 0 .pi] t = .next u) ∧
      ∀ i ∈ [Instr.pidSetkp 0 7, .encStep 0 0b11#2, .pidSetmode 0 .pi],
        mayWrite 0 .output i = false ∧ mayWrite 0 .minLimit i = false :=
  ⟨by decide, ⟨_, _, rfl, rfl⟩, by decide⟩

theorem witness_AccumulatorAndLastInputInvariants :
    ((0 : Inst).val < busy.cfg.nPid.toNat ∧ mayWrite 0 .mode (.pidSetmode 0 .pi) = true ∧
      (∃ t u, exec (.pidSetmode 0 .pi) busy = .next t ∧ runOps [.pidSetki 0 512, .pidCompute 1 5 5] t = .next u) ∧
      ∀ j ∈ [Instr.pidSetki 0 512, .pidCompute 1 5 5], ∀ x sp, j ≠ .pidCompute 0 x sp) ∧
    (∃ t u, exec (.pidCompute 0 40 0) busy = .next t ∧ runOps [.pidSetout 0 9, .pidSetmode 0 .pd] t = .next u) ∧
      ∀ j ∈ [Instr.pidSetout 0 9, .pidSetmode 0 .pd], mayWrite 0 .input j = false :=
  ⟨⟨by decide, by decide, ⟨_, _, rfl, rfl⟩, by simp⟩, ⟨_, _, rfl, rfl⟩, by decide⟩

/-- Gains, an output and a mode are set, but no limits. -/
theorem witness_UnconfiguredControllerAnswersZero :
    (1 : Inst).val < Config.thisHardware.nPid.toNat ∧
      ∀ i ∈ [Instr.pidSetkp 1 1024, .pidSetmode 1 .manual, .pidSetout 1 50], mayWrite 1 .maxLimit i = false := by decide

end Sys2Proof.Tests
end

section
/-! The decoder cells: what each operation leaves in them (spec 10_state.md, section 2; R37, R84), and R11. -/

namespace Sys2Proof.Machine

/-- To see that a command keeps the decoders, look at its body: the rejection writes none (R184). -/
theorem onChannel_next_enc {s t : State} {n : Inst} {k : Channel → Result} (h : onChannel s n k = .next t)
    (hk : ∀ i, k i = .next t → t.enc = s.enc) : t.enc = s.enc := by
  obtain ⟨i, _, hr⟩ | ⟨_, hr⟩ := onChannel_cases s n k
  · exact hk i (hr.symm.trans h)
  · cases hr.symm.trans h
    simp

theorem onPid_next_enc {s t : State} {n : Inst} {k : Result} (h : onPid s n k = .next t)
    (hk : k = .next t → t.enc = s.enc) : t.enc = s.enc := by
  obtain ⟨_, hr⟩ | ⟨_, hr⟩ := onPid_cases s n k
  · exact hk (hr.symm.trans h)
  · cases hr.symm.trans h
    simp

/-- The fault of an illegal mode (R187) has no next state, so it needs no decoder. -/
theorem execPidCompute_next_enc {s t : State} {n : Inst} {x sp : Word16} (h : execPidCompute n x sp s = .next t) :
    t.enc = s.enc := by
  refine onPid_next_enc h fun hk => ?_
  split at hk
  · cases hk
  · cases hk
    simp

/-- All that an operation can do to the decoders: an edge step replaces its channel's decoder, and every other
operation leaves all of them as they were (R37). -/
theorem exec_next_enc {op : Instr} {s t : State} (h : exec op s = .next t) :
    (∃ i ab, op = .encStep i ab ∧ t.enc = s.enc.set i (edgeStep s.enc[i] ab)) ∨ t.enc = s.enc := by
  cases op with
  | encStep i ab => cases h; exact .inl ⟨i, ab, rfl, rfl⟩
  | spdDiff => cases h; exact .inr rfl
  | encRdtick | encRderr | encRdstate | spdSample =>
    exact .inr (onChannel_next_enc h fun i hk => by cases hk; rfl)
  | pidCompute => exact .inr (execPidCompute_next_enc h)
  | pidSetcfg | pidSetmode | pidSetkp | pidSetki | pidSetkd | pidSetkw | pidSetout | pidSetin | pidSetsp
  | pidGetkp | pidGetki | pidGetkd | pidGetkw | pidGetout | pidGetin | pidGetsp =>
    exact .inr (onPid_next_enc h fun hk => by cases hk; rfl)

/-- The decoder of a channel changes by an edge step on that channel and by nothing else. -/
theorem exec_next_enc_of_ne {op : Instr} {i : Channel} {s t : State} (hop : ∀ ab, op ≠ .encStep i ab)
    (h : exec op s = .next t) : t.enc[i] = s.enc[i] := by
  obtain ⟨j, ab, rfl, henc⟩ | henc := exec_next_enc h
  · have hij : i ≠ j := fun e => hop ab (e ▸ rfl)
    rw [henc, vector_set_other _ _ _ _ hij]
  · rw [henc]

/-- Whatever the sample, the first of the three steps of R84 copies `new_state`. -/
@[simp] theorem edgeStep_oldState (d : Decoder) (ab : Pair) : (edgeStep d ab).oldState = d.newState := by
  cases h : classify d.newState ab <;> simp [edgeStep, h]

/-- Settles O27: the edge step copies by `edgeStep_oldState`, and no other operation reaches the decoder. -/
theorem oldStateIsThePreviousNewState : Obligations.OldStateIsThePreviousNewState := by
  refine ⟨fun i ab s => ⟨_, rfl, ?copied⟩, fun op i s t hop h => ?kept, fun c i => ?reset⟩
  case copied => simp
  case kept => rw [exec_next_enc_of_ne hop h]
  case reset =>
    obtain ⟨hdecoder, _⟩ := (resetWith_instances c).1 i
    rw [hdecoder]
    rfl

end Sys2Proof.Machine
end

section
/-! The clock cycle as a sequence of operations (spec 20_memory.md R49, R53; 60_exceptions.md R191). A cycle that
presents one event, or the command alone, runs that port alone; edge steps commute with one another, with the taking
of pins and with the clearing of the response. -/

namespace Sys2Proof.Machine

/-- The decoder an event port leaves: stepped by an event, kept without one (R56). -/
def Decoder.afterEvent (d : Decoder) : Option Pair → Decoder
  | none => d
  | some ab => edgeStep d ab

/-- The state the event port of channel `i` leaves. -/
def State.afterEvent (i : Channel) (e : Option Pair) (s : State) : State := s.setEnc i (s.enc[i].afterEvent e)

@[simp] theorem State.afterEvent_none (i : Channel) (s : State) : s.afterEvent i none = s :=
  congrArg (fun decoders => { s with enc := decoders }) (vector_set_self s.enc i)

theorem runEvent_eq_afterEvent (i : Channel) (e : Option Pair) (s : State) :
    runEvent i e s = .next (s.afterEvent i e) := by
  cases e with
  | none => rw [State.afterEvent_none]; rfl
  | some ab => rfl

theorem State.setEnc_comm {i j : Channel} (hij : i ≠ j) (d d' : Decoder) (s : State) :
    (s.setEnc i d).setEnc j d' = (s.setEnc j d').setEnc i d :=
  congrArg (fun decoders => { s with enc := decoders }) (Vector.set_comm _ _ fun hval => hij (Fin.ext hval))

/-- Edge steps of different channels commute (R53: either order): each reads and writes its own decoder alone. -/
theorem State.afterEvent_comm {i j : Channel} (hij : i ≠ j) (e f : Option Pair) (s : State) :
    (s.afterEvent i e).afterEvent j f = (s.afterEvent j f).afterEvent i e := by
  simp only [State.afterEvent, State.setEnc_enc, vector_set_other _ _ _ _ hij, vector_set_other _ _ _ _ hij.symm]
  exact State.setEnc_comm hij _ _ s

/-- A cycle without reset that presents `e₀`, `e₁` and `cmd`: both edge steps, then the command port (R191). -/
theorem runCycle_events_command (e₀ e₁ : Option Pair) (cmd : Option CmdWord) (s : State) :
    runCycle { rst := false, evt := #v[e₀, e₁], cmd := cmd } s =
      runCommand cmd ((s.noResponse.afterEvent 0 e₀).afterEvent 1 e₁) := by
  change thenRun (runEvent 0 e₀ s.noResponse) (fun s₁ => thenRun (runEvent 1 e₁ s₁) (runCommand cmd)) = _
  simp only [runEvent_eq_afterEvent, thenRun_of_next]

/-- The cycle that presents to channel `i` an event or none, and nothing else. -/
def Cycle.eventOnly (i : Channel) (e : Option Pair) : Cycle := { Cycle.idle with evt := Cycle.idle.evt.set i e }

/-- The cycle that presents to the command port a word or none, and nothing else. -/
def Cycle.commandOnly (cmd : Option CmdWord) : Cycle := { Cycle.idle with cmd := cmd }

theorem runCycle_eventOnly (i : Channel) (e : Option Pair) (s : State) :
    runCycle (.eventOnly i e) s = .next (s.noResponse.afterEvent i e) := by
  match i with
  | 0 => exact (runCycle_events_command e none none s).trans (by rw [State.afterEvent_none]; rfl)
  | 1 => exact (runCycle_events_command none e none s).trans (by rw [State.afterEvent_none]; rfl)

theorem runCycle_commandOnly (cmd : Option CmdWord) (s : State) :
    runCycle (.commandOnly cmd) s = runCommand cmd s.noResponse := by
  rw [Cycle.commandOnly, Cycle.idle, runCycle_events_command, State.afterEvent_none, State.afterEvent_none]

/-- The step takes the first listed cycle (R55, log 1). -/
theorem step_of_inputs {s : State} {c : Cycle} {rest : List Cycle} (h : s.inputs = c :: rest) :
    step s = runCycle c { s with inputs := rest } := by
  simp [step, cycleStep, State.pins, State.takePins, h]

theorem core_run_one (s : State) : Sys2Proof.core.run 1 s = step s := by
  change Sys2Proof.core.run 1 s = Sys2Proof.core.step s
  cases h : Sys2Proof.core.step s <;> simp only [Host.Core.run, h]

theorem core_run_succ_of_step {s t : State} (h : step s = .next t) (k : Nat) :
    Sys2Proof.core.run (k + 1) s = Sys2Proof.core.run k t := by
  have hcore : Sys2Proof.core.step s = .next t := h
  simp only [Host.Core.run, hcore]

/-- Two events and a command, presented one by one in three cycles, run one after another (R49). -/
theorem run_events_command_one_by_one (i j : Channel) (e f : Option Pair) (cmd : Option CmdWord) (rest : List Cycle)
    (s : State) :
    Sys2Proof.core.run 3 { s with inputs := .eventOnly i e :: .eventOnly j f :: .commandOnly cmd :: rest } =
      runCommand cmd ((State.noResponse { s with inputs := rest }).afterEvent i e |>.afterEvent j f) := by
  rw [core_run_succ_of_step ((step_of_inputs rfl).trans (runCycle_eventOnly i e _)),
    core_run_succ_of_step ((step_of_inputs rfl).trans (runCycle_eventOnly j f _)), core_run_one,
    step_of_inputs rfl, runCycle_commandOnly]
  rfl

/-- Settles O15: one cycle and three cycles both run the edge steps and then the command, and the edge steps commute. -/
theorem cycleIsTheSequenceOfItsOperations : Obligations.CycleIsTheSequenceOfItsOperations := by
  intro s e₀ e₁ cmd rest hinputs
  have hcycle : step s =
      runCommand cmd ((State.noResponse { s with inputs := rest }).afterEvent 0 e₀ |>.afterEvent 1 e₁) :=
    (step_of_inputs hinputs).trans (runCycle_events_command e₀ e₁ cmd _)
  constructor
  · exact hcycle.trans (run_events_command_one_by_one 0 1 e₀ e₁ cmd rest s).symm
  · rw [hcycle, State.afterEvent_comm (by decide)]
    exact (run_events_command_one_by_one 1 0 e₁ e₀ cmd rest s).symm

end Sys2Proof.Machine
end

section
/-! Command words as bytes (spec 20_memory.md R47). -/

namespace Sys2Proof.Machine

/-- Byte `k` holds the word from bit `8 (13 - k)` up. -/
theorem toBytes_eq_map (cw : CmdWord) :
    toBytes cw = (List.range 14).map fun k => cw.extractLsb' (8 * (13 - k)) 8 := rfl

/-- From byte 0 on, each byte joins the bits above it, until all 112 bits are there. -/
theorem ofBytes_toBytes (cw : CmdWord) : ofBytes (toBytes cw) = some cw := by
  have join (lo n : Nat) : cw.extractLsb' (lo + 8) n ++ cw.extractLsb' lo 8 = cw.extractLsb' lo (n + 8) :=
    BitVec.extractLsb'_append_extractLsb'_eq_extractLsb' rfl
  rw [toBytes, ofBytes, join 96, join 88, join 80, join 72, join 64, join 56, join 48, join 40, join 32, join 24,
    join 16, join 8, join 0]
  exact congrArg some BitVec.extractLsb'_eq_self

/-- Settles O10: the bytes are the map over the fourteen positions, and joining them gives the word. -/
theorem commandWordsAreStoredBigEndian : Obligations.CommandWordsAreStoredBigEndian := by
  intro cw
  refine ⟨rfl, fun k hk => ?byte, ofBytes_toBytes cw⟩
  case byte => simp [toBytes_eq_map, hk]

end Sys2Proof.Machine
end

section
/-! Which rejection a command word gets (spec 30_encoding.md R63 to R65, R71), and what the cycle that presents a
rejected word leaves (60_exceptions.md R184). -/

namespace Sys2Proof.Machine

/-- The ten opcode numbers without an operation (R64). -/
def reservedOpcodes : List Nat := [0x00, 0x06, 0x07, 0x0B, 0x0C, 0x0D, 0x0E, 0x0F, 0x17, 0x1F]

/-- The opcode numbers whose `inst` is checked against `N_ENC` (R65). -/
def decoderOpcodes : List Nat := [0x01, 0x02, 0x03, 0x05]

/-- The opcode numbers whose `inst` is checked against `N_PID` (R65). -/
def pidOpcodes : List Nat :=
  [0x08, 0x09, 0x0A, 0x10, 0x11, 0x12, 0x13, 0x14, 0x15, 0x16, 0x18, 0x19, 0x1A, 0x1B, 0x1C, 0x1D, 0x1E]

/-! The opcode field. -/

theorem opcode_ofBits_eq_none {b : BitVec 5} : Opcode.ofBits b = none ↔ b.toNat ∈ reservedOpcodes := by
  revert b; decide

theorem exists_opcode_of_not_reserved {b : BitVec 5} (h : b.toNat ∉ reservedOpcodes) : ∃ o : Opcode, b = o.toBits := by
  obtain ⟨o, ho⟩ := Option.ne_none_iff_exists'.mp (mt opcode_ofBits_eq_none.mp h)
  exact ⟨o, opcode_ofBits_eq_some.mp ho⟩

theorem exists_opcode_of_decoderOpcodes {b : BitVec 5} (h : b.toNat ∈ decoderOpcodes) : ∃ o : Opcode, b = o.toBits :=
  have disjoint : ∀ n ∈ decoderOpcodes, n ∉ reservedOpcodes := by decide
  exists_opcode_of_not_reserved (disjoint _ h)

theorem exists_opcode_of_pidOpcodes {b : BitVec 5} (h : b.toNat ∈ pidOpcodes) : ∃ o : Opcode, b = o.toBits :=
  have disjoint : ∀ n ∈ pidOpcodes, n ∉ reservedOpcodes := by decide
  exists_opcode_of_not_reserved (disjoint _ h)

/-! The `inst` field. -/

theorem instOk_of_decoderOpcodes {o : Opcode} (h : o.toBits.toNat ∈ decoderOpcodes) (c : Config) (n : Inst) :
    o.instOk c n = encInstOk n := by
  cases o with
  | encRdtick | encRderr | encRdstate | spdSample => rfl
  | _ => exact absurd h (by decide)

theorem instOk_of_pidOpcodes {o : Opcode} (h : o.toBits.toNat ∈ pidOpcodes) (c : Config) (n : Inst) :
    o.instOk c n = pidInstOk c n := by
  cases o with
  | encRdtick | encRderr | encRdstate | spdSample | spdDiff => exact absurd h (by decide)
  | _ => rfl

theorem encInstOk_eq_false_iff {n : Inst} : encInstOk n = false ↔ 2 ≤ n.val := by
  simp [encInstOk, Config.nEnc, Nat.succ_le_iff]

theorem pidInstOk_eq_false_iff {c : Config} {n : Inst} : pidInstOk c n = false ↔ c.nPid.toNat ≤ n.val := by
  simp [pidInstOk]

theorem pidInstOk_iff {c : Config} {n : Inst} : pidInstOk c n = true ↔ n.val < c.nPid.toNat := by
  simp [pidInstOk]

/-! The must-be-zero fields and the reserved modes. -/

/-- A word of an opcode that has not the shape of the opcode's row has a nonzero bit where R63 wants zeros. -/
theorem fieldsOk_eq_false_of_shape_ne {o : Opcode} {cw : CmdWord} (hop : (Fields.ofWord cw).op = o.toBits)
    (hshape : cw &&& formatMask o.format ≠ rowMatch o) : (Fields.ofWord cw).fieldsOk o.format = false := by
  rw [← Bool.not_eq_true, fieldsOk_iff]
  rintro ⟨hrsv, hinst, hmode, hvalues, -⟩
  exact hshape ((shape_iff o cw).mpr ⟨hop, hrsv, hinst, hmode, hvalues⟩)

theorem fieldsOk_eq_false_of_reserved_mode {fmt : Format} {f : Fields} (huses : fmt.usesMode = true)
    (hmode : 6 ≤ f.mode.toNat) : f.fieldsOk fmt = false := by
  simp [Fields.fieldsOk, huses, mode_ofBits_eq_none.mpr hmode]

/-! The three rejections. -/

theorem decode_eq_reservedOp_iff {c : Config} {cw : CmdWord} :
    decode c cw = .reject .reservedOp ↔ Opcode.ofBits (Fields.ofWord cw).op = none := by
  cases hop : Opcode.ofBits (Fields.ofWord cw).op with
  | none => simp [decode, hop]
  | some o =>
    rw [decode_of_op (opcode_ofBits_eq_some.mp hop)]
    obtain ⟨-, h⟩ | ⟨-, -, h⟩ | ⟨-, -, i, -, -, h⟩ := decodeFields_cases c (Fields.ofWord cw) o <;> simp [h]

theorem decode_eq_badInst_iff {c : Config} {cw : CmdWord} {o : Opcode} (hop : (Fields.ofWord cw).op = o.toBits) :
    decode c cw = .reject .badInst ↔ o.instOk c (Fields.ofWord cw).instIdx = false := by
  rw [decode_of_op hop]
  obtain ⟨hinst, h⟩ | ⟨hinst, -, h⟩ | ⟨hinst, -, i, -, -, h⟩ := decodeFields_cases c (Fields.ofWord cw) o <;>
    simp [h, hinst]

theorem decode_eq_badField_iff {c : Config} {cw : CmdWord} {o : Opcode} (hop : (Fields.ofWord cw).op = o.toBits) :
    decode c cw = .reject .badField ↔
      o.instOk c (Fields.ofWord cw).instIdx = true ∧ (Fields.ofWord cw).fieldsOk o.format = false := by
  rw [decode_of_op hop]
  obtain ⟨hinst, h⟩ | ⟨hinst, hfields, h⟩ | ⟨hinst, hfields, i, -, -, h⟩ :=
    decodeFields_cases c (Fields.ofWord cw) o <;> simp [*]

/-- A cycle that presents one word that is rejected answers `(code, 0)` and changes nothing else (R184). -/
theorem step_of_rejected {s : State} {cw : CmdWord} {r : Rejection} (hpins : s.pins = Cycle.ofCommand cw)
    (hdecode : decode s.cfg cw = .reject r) :
    step s = .next { s.takePins with rsp := some { code := rejectionCode r, data := 0 } } := by
  calc step s = runCommand (some cw) s.takePins.noResponse :=
        (congrArg (runCycle · s.takePins) hpins).trans (runCycle_commandOnly (some cw) _)
    _ = .next (s.takePins.noResponse.reject r) := by simp [runCommand, hdecode]

/-- Settles O4: the words rejected with code 1 are those without an opcode, by `opcode_ofBits_eq_none`. -/
theorem reservedOpcodesAreRejected : Obligations.ReservedOpcodesAreRejected := by
  have rejected (c : Config) (cw : CmdWord) :
      decode c cw = .reject .reservedOp ↔ (cw.extractLsb' 107 5).toNat ∈ reservedOpcodes :=
    decode_eq_reservedOp_iff.trans opcode_ofBits_eq_none
  refine ⟨rejected, fun s cw hpins hop => ?unchanged, fun c => ?zero⟩
  case unchanged => exact step_of_rejected hpins ((rejected s.cfg cw).mpr hop)
  case zero => exact (rejected c 0#112).mpr (by decide)

/-- Settles O5: by opcode group, code 2 is the failed check of the group's count; `SPD.DIFF` has none, and its nonzero
`inst` breaks the shape of its row. -/
theorem reservedInstancesAreRejected : Obligations.ReservedInstancesAreRejected := by
  refine fun c cw => ⟨fun hop => ?decoder, fun hop => ?pid, fun hop => ?diff⟩
  case decoder =>
    obtain ⟨o, ho⟩ := exists_opcode_of_decoderOpcodes hop
    rw [decode_eq_badInst_iff ho, instOk_of_decoderOpcodes (ho ▸ hop)]
    exact encInstOk_eq_false_iff
  case pid =>
    obtain ⟨o, ho⟩ := exists_opcode_of_pidOpcodes hop
    rw [decode_eq_badInst_iff ho, instOk_of_pidOpcodes (ho ▸ hop)]
    exact pidInstOk_eq_false_iff
  case diff =>
    have ho : (Fields.ofWord cw).op = Opcode.spdDiff.toBits := BitVec.eq_of_toNat_eq hop
    have hinstOk : Opcode.spdDiff.instOk c (Fields.ofWord cw).instIdx = true := rfl
    constructor
    · simp [decode_eq_badInst_iff ho, hinstOk]
    · intro hinst
      have hshape : cw &&& formatMask .d ≠ rowMatch .spdDiff := fun h => by
        obtain ⟨-, -, hused | hzero, -⟩ := (shape_iff .spdDiff cw).mp h
        · cases hused
        · exact hinst hzero
      exact (decode_eq_badField_iff ho).mpr ⟨hinstOk, fieldsOk_eq_false_of_shape_ne ho hshape⟩

/-- Settles O7: step 3 of R71 fails, by `fieldsOk_eq_false_of_shape_ne`. -/
theorem nonzeroUnusedFieldIsRejected : Obligations.NonzeroUnusedFieldIsRejected := by
  intro o cw hop hshape
  have rejected (c : Config) (hinst : o.instOk c (Fields.ofWord cw).instIdx = true) :
      decode c cw = .reject .badField :=
    (decode_eq_badField_iff hop).mpr ⟨hinst, fieldsOk_eq_false_of_shape_ne hop hshape⟩
  exact ⟨rejected, fun s hinst hpins => step_of_rejected hpins (rejected s.cfg hinst)⟩

end Sys2Proof.Machine
end

section
/-! What every step keeps, part by part of the cycle; the PID cells and the mode cells; R66. -/

namespace Sys2Proof.Machine

/-! Inversions: a next state comes from the body of the operation or from the rejection. -/

theorem onChannel_next {s t : State} {n : Inst} {k : Channel → Result} (h : onChannel s n k = .next t) :
    (∃ i, k i = .next t) ∨ t = s.reject .badInst := by
  obtain ⟨i, -, hr⟩ | ⟨-, hr⟩ := onChannel_cases s n k
  · exact .inl ⟨i, hr.symm.trans h⟩
  · cases hr.symm.trans h
    exact .inr rfl

theorem onPid_next {s t : State} {n : Inst} {k : Result} (h : onPid s n k = .next t) :
    k = .next t ∨ t = s.reject .badInst := by
  obtain ⟨-, hr⟩ | ⟨-, hr⟩ := onPid_cases s n k
  · exact .inl (hr.symm.trans h)
  · cases hr.symm.trans h
    exact .inr rfl

/-- What the parts of a cycle keep, the step keeps: taking the pins and clearing the response, reset, every operation
and the rejection (R191). -/
theorem step_keeps {P : State → Prop} (hbegin : ∀ s, P s → P s.takePins.noResponse)
    (hreset : ∀ s, P s → P s.takePins.resetAll) (hexec : ∀ i s t, P s → exec i s = .next t → P t)
    (hreject : ∀ s r, P s → P (s.reject r)) {s t : State} (hs : P s) (h : step s = .next t) : P t := by
  have hevent : ∀ (i : Channel) (e : Option Pair) (u v : State), P u → runEvent i e u = .next v → P v := by
    intro i e u v hu huv
    cases e with
    | none => cases huv; exact hu
    | some ab => exact hexec (.encStep i ab) u v hu huv
  have hcommand : ∀ (cmd : Option CmdWord) (u v : State), P u → runCommand cmd u = .next v → P v := by
    intro cmd u v hu huv
    obtain ⟨-, hr⟩ | ⟨-, i, -, -, hr⟩ | ⟨-, r, -, -, hr⟩ := runCommand_cases cmd u
    · cases hr.symm.trans huv; exact hu
    · exact hexec i u v hu (hr.symm.trans huv)
    · cases hr.symm.trans huv; exact hreject u r hu
  cases hrst : s.pins.rst with
  | true =>
    cases (runCycle_reset hrst s.takePins).symm.trans h
    exact hreset s hs
  | false =>
    obtain ⟨s₁, s₂, h₁, h₂, h₃⟩ := runCycle_next hrst h
    exact hcommand _ _ _ (hevent _ _ _ _ (hevent _ _ _ _ (hbegin s hs) h₁) h₂) h₃

/-- The mode cell of `d` is that of `c`, or it holds one of the six modes (R21). -/
def Pid.ModeKeptOrSet (c d : Pid) : Prop := d.mode = c.mode ∨ ∃ m : Mode, d.mode = m.toBits

/-- To see what a command does to the PID file, look at its body: the rejection writes none (R184). -/
theorem onPid_next_pid {s t : State} {n : Inst} {k : Result} {Q : Prop} (h : onPid s n k = .next t)
    (hk : k = .next t → t.pid = s.pid ∨ Q) : t.pid = s.pid ∨ Q := by
  obtain hrun | rfl := onPid_next h
  · exact hk hrun
  · exact .inl rfl

/-- A compute writes the cells of R133, and `mode` is none of them; a fault has no next state. -/
theorem execPidCompute_next_pid {s t : State} {n : Inst} {x sp : Word16} (h : execPidCompute n x sp s = .next t) :
    t.pid = s.pid ∨ ∃ m, t.pid = s.pid.set n (computeStep s.cfg.wIsum m s.pid[n] x sp) := by
  refine onPid_next_pid h fun hk => ?_
  split at hk
  · cases hk
  · cases hk
    exact .inr ⟨_, rfl⟩

/-- An operation replaces at most one entry of the PID file, and a mode cell it writes holds a mode (R131, R132). -/
theorem exec_next_pid {op : Instr} {s t : State} (h : exec op s = .next t) :
    t.pid = s.pid ∨ ∃ (n : Inst) (d : Pid), t.pid = s.pid.set n d ∧ s.pid[n].ModeKeptOrSet d := by
  cases op with
  | encStep | spdDiff => cases h; exact .inl rfl
  | encRdtick | encRderr | encRdstate | spdSample =>
    obtain ⟨i, hk⟩ | rfl := onChannel_next h
    · cases hk; exact .inl rfl
    · exact .inl rfl
  | pidGetkp | pidGetki | pidGetkd | pidGetkw | pidGetout | pidGetin | pidGetsp =>
    exact onPid_next_pid h fun hk => by cases hk; exact .inl rfl
  | pidSetkp | pidSetki | pidSetkd | pidSetkw | pidSetout | pidSetin | pidSetsp =>
    exact onPid_next_pid h fun hk => by cases hk; exact .inr ⟨_, _, rfl, .inl rfl⟩
  | pidSetcfg n m | pidSetmode n m =>
    exact onPid_next_pid h fun hk => by cases hk; exact .inr ⟨_, _, rfl, .inr ⟨m, rfl⟩⟩
  | pidCompute =>
    exact (execPidCompute_next_pid h).imp_right fun ⟨_, hpid⟩ => ⟨_, _, hpid, .inl rfl⟩

theorem mode_toBits_lt (m : Mode) : m.toBits.toNat < 6 := by cases m <;> decide

theorem exec_keeps_legal_mode {op : Instr} {s t : State} {p : Inst} (hs : s.pid[p].mode.toNat < 6)
    (h : exec op s = .next t) : t.pid[p].mode.toNat < 6 := by
  obtain hpid | ⟨n, d, hpid, hmode⟩ := exec_next_pid h
  · rwa [hpid]
  · rw [hpid]
    by_cases hp : p = n
    · subst hp
      rw [vector_set_same]
      obtain hkept | ⟨m, hset⟩ := hmode
      · rwa [hkept]
      · rw [hset]; exact mode_toBits_lt m
    · rwa [vector_set_other _ _ _ _ hp]

theorem step_keeps_legal_mode {s t : State} {p : Inst} (hs : s.pid[p].mode.toNat < 6) (h : step s = .next t) :
    t.pid[p].mode.toNat < 6 := by
  refine step_keeps (P := fun u => u.pid[p].mode.toNat < 6) (fun _ hu => hu) (fun u _ => ?reset)
    (fun _ _ _ hu huv => exec_keeps_legal_mode hu huv) (fun _ _ hu => hu) hs h
  case reset =>
    have hpid : u.takePins.resetAll.pid[p] = Pid.reset := (resetWith_instances u.cfg).2 p
    rw [hpid]
    decide

/-- The two opcodes with a `mode` field are those of `PID.SETCFG` and `PID.SETMODE` (R60, R61). -/
theorem usesMode_iff {o : Opcode} : o.format.usesMode = true ↔ o.toBits.toNat ∈ [0x08, 0x0A] := by
  cases o <;> decide

/-- Settles O6: a reserved mode fails step 3 of R71; no part of a cycle writes one, by `step_keeps_legal_mode`. -/
theorem reservedModesAreRejected : Obligations.ReservedModesAreRejected := by
  refine ⟨fun s cw hpins hop hinst hmode => ?rejected, fun s t p hs h => step_keeps_legal_mode hs h⟩
  case rejected =>
    have hpidOp : ∀ n ∈ [0x08, 0x0A], n ∈ pidOpcodes := by decide
    obtain ⟨o, ho⟩ := exists_opcode_of_pidOpcodes (hpidOp _ hop)
    have huses : o.format.usesMode = true := usesMode_iff.mpr (ho ▸ hop)
    have hinstOk : o.instOk s.cfg (Fields.ofWord cw).instIdx = true := by
      rw [instOk_of_pidOpcodes (hpidOp _ (usesMode_iff.mp huses))]
      exact pidInstOk_iff.mpr hinst
    have hdecode : decode s.cfg cw = .reject .badField :=
      (decode_eq_badField_iff ho).mpr ⟨hinstOk, fieldsOk_eq_false_of_reserved_mode huses hmode⟩
    exact ⟨hdecode, step_of_rejected hpins hdecode⟩

end Sys2Proof.Machine
end

section
/-! The speed estimator (spec 41_speed_estimator.md): how a word without `mode` decodes, what a command that only
answers leaves, and the difference wrapped to 16 bits (R101, R102). -/

namespace Sys2Proof.Machine

/-! Decoding by the clauses of a rule. -/

theorem fieldsOk_iff_shape {o : Opcode} {cw : CmdWord} (hop : (Fields.ofWord cw).op = o.toBits)
    (hmode : o.format.usesMode = false) :
    (Fields.ofWord cw).fieldsOk o.format = true ↔ cw &&& formatMask o.format = rowMatch o := by
  simp [fieldsOk_iff, shape_iff, hop, hmode]

/-- The clauses of R60, R61 and R71 for an opcode of a format without `mode`: its instances are those below `limit`,
and step 4 builds its operation from the fields. -/
theorem decodesBy_of_build {c : Config} {o : Opcode} {limit : Nat} {mk : Fields → Instr}
    (hmode : o.format.usesMode = false) (hlimit : ∀ n, o.instOk c n = false ↔ limit ≤ n.val)
    (hbuild : ∀ f, o.build f = some (mk f)) : decodesBy c o.toBits.toNat o limit mk := by
  intro cw hopNat
  have hop : (Fields.ofWord cw).op = o.toBits := BitVec.eq_of_toNat_eq hopNat
  have habsent : limit ≤ (cw.extractLsb' 105 2).toNat ↔ o.instOk c (Fields.ofWord cw).instIdx = false :=
    (hlimit (Fields.ofWord cw).instIdx).symm
  rw [decode_of_op hop]
  simp only [habsent, ← fieldsOk_iff_shape hop hmode]
  obtain ⟨hinst, h⟩ | ⟨hinst, hfields, h⟩ | ⟨hinst, hfields, i, hi, -, h⟩ :=
    decodeFields_cases c (Fields.ofWord cw) o
  · simp [h, hinst]
  · simp [h, hinst, hfields]
  · have hmk : mk (Fields.ofWord cw) = i := Option.some.inj ((hbuild _).symm.trans hi)
    simp [h, hinst, hfields, hmk]

/-- `SPD.DIFF` has no instance to check: the limit is the number of values of the field. -/
theorem decodesBy_spdDiff (c : Config) : decodesBy c 0x04 .spdDiff 4 fun f => .spdDiff f.a0 f.a1 :=
  decodesBy_of_build (o := .spdDiff) rfl (fun n => iff_of_false Bool.true_eq_false.mp (Nat.not_le.mpr n.isLt))
    fun _ => rfl

/-! A command that only answers. -/

theorem onlyResponse_respond (s : State) (data : Word16) : onlyResponse s (s.respond data) :=
  ⟨s.respond_cfg data, s.respond_enc data, s.respond_spd data, s.respond_pid data, s.respond_inputs data⟩

theorem answers_respond (s : State) (data : Word16) : answers (s.respond data) data := s.respond_rsp data

theorem exec_spdDiff (new old : Word16) (s : State) :
    exec (.spdDiff new old) s = .next (s.respond (speed new old)) := rfl

/-! The wrapped difference. -/

theorem toInt_speed (new old : Word16) : (speed new old).toInt = wrap16 (new.toInt - old.toInt) :=
  toInt_cell16_wrap _

/-- A wrap on the way is lost modulo 2^16: the start of a movement cancels (R101). -/
theorem wrap16_wrap16_add_sub (start d : Int) : wrap16 (wrap16 (start + d) - start) = wrap16 d := by
  rw [wrap16, wrap16, Int.bmod_sub_bmod, add_sub_cancel_left, wrap16]

theorem wrap16_of_range {d : Int} (hmin : -32768 ≤ d) (hmax : d ≤ 32767) : wrap16 d = d :=
  (toInt_cell16_wrap d).symm.trans (toInt_cell16 ⟨hmin, hmax⟩)

/-- Settles O30: decoding by `decodesBy_spdDiff`; the operation is the response with the speed. -/
theorem speedDiffAnswersTheModularDifference : Obligations.SpeedDiffAnswersTheModularDifference :=
  ⟨decodesBy_spdDiff, fun new old s =>
    ⟨_, _, exec_spdDiff new old s, onlyResponse_respond s _, answers_respond s _, toInt_speed new old⟩⟩

/-- Settles O31: the earlier snapshot cancels, by `wrap16_wrap16_add_sub`, and a movement in range is its own wrap. -/
theorem speedIsExactAcrossAWrap : Obligations.SpeedIsExactAcrossAWrap := by
  refine ⟨toInt_speed, fun c new d hmoved => ?_⟩
  have hspeed : (speed new c).toInt = wrap16 d := by
    rw [toInt_speed, hmoved, wrap16_wrap16_add_sub]
  exact ⟨hspeed, fun hmin hmax => hspeed.trans (wrap16_of_range hmin hmax)⟩

end Sys2Proof.Machine
end

section
/-! The saturating primitives (spec 42_saturating_arithmetic.md, R110 to R113), from three rules of `sat` and the
relation `MIN = -MAX - 1` of the two bounds. -/

namespace Sys2Proof.Machine

/-! The bounds of R7, and `sat` above, below and inside them. -/

theorem maxOf_nonneg (n : Nat) : 0 ≤ maxOf n := Int.sub_nonneg_of_le (Int.pow_pos (by decide))

/-- The signed range has one more value below zero than above. -/
theorem minOf_eq_neg_maxOf_sub_one (n : Nat) : minOf n = -maxOf n - 1 := by
  rw [minOf, maxOf]
  ring

theorem sat_of_maxOf_le {n : Nat} {x : Int} (h : maxOf n ≤ x) : sat n x = maxOf n := by
  have hmax := maxOf_nonneg n
  have hmin := minOf_eq_neg_maxOf_sub_one n
  rw [sat, min_eq_left h]
  exact max_eq_right (by omega)

theorem sat_of_le_minOf {n : Nat} {x : Int} (h : x ≤ minOf n) : sat n x = minOf n :=
  max_eq_left ((min_le_right _ _).trans h)

theorem sat_of_range {n : Nat} {x : Int} (hmin : minOf n ≤ x) (hmax : x ≤ maxOf n) : sat n x = x := by
  rw [sat, min_eq_right hmax, max_eq_right hmin]

theorem outside_range_of_sat_ne {n : Nat} {x : Int} (h : sat n x ≠ x) : x < minOf n ∨ maxOf n < x := by
  by_contra hrange
  obtain ⟨hmin, hmax⟩ := not_or.mp hrange
  exact h (sat_of_range (not_lt.mp hmin) (not_lt.mp hmax))

/-- `sat` is the limit by cases of R110. -/
theorem sat_eq_limitTo (n : Nat) (x : Int) : sat n x = limitTo n x := by
  change sat n x = if x > maxOf n then maxOf n else if x < minOf n then minOf n else x
  split_ifs with hhigh hlow
  · exact sat_of_maxOf_le hhigh.le
  · exact sat_of_le_minOf hlow.le
  · exact sat_of_range (not_lt.mp hlow) (not_lt.mp hhigh)

/-! Addition (R110) and subtraction (R111). -/

section
variable {n : Nat} {a b : Int} (hamin : minOf n ≤ a) (hamax : a ≤ maxOf n) (hbmin : minOf n ≤ b) (hbmax : b ≤ maxOf n)
include hamin hamax hbmin hbmax

/-- Operands of opposite signs have a sum between them, so an overflow has two of the same sign. -/
theorem same_sign_of_ssadd_ne (h : ssadd n a b ≠ a + b) : 0 ≤ a ↔ 0 ≤ b := by
  obtain hlow | hhigh := outside_range_of_sat_ne h <;> omega

/-- Operands of the same sign differ by no more than the range allows, so an overflow has two of opposite signs. -/
theorem opposite_sign_of_sssub_ne (h : sssub n a b ≠ a - b) : ¬(0 ≤ a ↔ 0 ≤ b) := by
  have hmin := minOf_eq_neg_maxOf_sub_one n
  obtain hlow | hhigh := outside_range_of_sat_ne h <;> omega

end

/-- Taking away `MIN` adds `MAX + 1`: from `-1` on the result is `MAX`. -/
theorem sssub_minOf {n : Nat} {a : Int} (h : -1 ≤ a) : sssub n a (minOf n) = maxOf n := by
  have hmin := minOf_eq_neg_maxOf_sub_one n
  exact sat_of_maxOf_le (by omega)

theorem ssadd_neg_one_maxOf (n : Nat) : ssadd n (-1) (maxOf n) = -1 + maxOf n := by
  have hmax := maxOf_nonneg n
  have hmin := minOf_eq_neg_maxOf_sub_one n
  exact sat_of_range (by omega) (by omega)

/-- Subtraction is not the addition of the opposite: the opposite of `MIN` saturates one short (R111). -/
theorem sssub_minOf_ne_ssadd_opposite (n : Nat) :
    sssub n (-1) (minOf n) ≠ ssadd n (-1) (sssub n 0 (minOf n)) := by
  rw [sssub_minOf le_rfl, sssub_minOf (by decide), ssadd_neg_one_maxOf]
  omega

/-! Multiplication (R112). -/

/-- The product of two 16-bit values is far inside the 32-bit range. -/
theorem ssmul_32_word16 (a b : Word16) : ssmul 32 a.toInt b.toInt = a.toInt * b.toInt := by
  have hmagnitude := natAbs_mul_word16_le a b
  exact sat_of_range (by rw [minOf_32]; omega) (by rw [maxOf_32]; omega)

/-! Division (R113). -/

theorem ssdiv_of_ne_zero {b : Int} (hb : b ≠ 0) (n : Nat) (a : Int) : ssdiv n a b = sat n (Int.tdiv a b) := by
  rw [ssdiv, if_neg hb, tdiv_eq]

theorem ssdiv_zero_left {b : Int} (hb : b ≠ 0) (n : Nat) : ssdiv n 0 b = 0 := by
  have hmax := maxOf_nonneg n
  have hmin := minOf_eq_neg_maxOf_sub_one n
  rw [ssdiv_of_ne_zero hb, Int.zero_tdiv]
  exact sat_of_range (by omega) hmax

/-- The one overflow: the opposite of `MIN` is `MAX + 1`. -/
theorem ssdiv_minOf_neg_one (n : Nat) : ssdiv n (minOf n) (-1) = maxOf n := by
  have hmin := minOf_eq_neg_maxOf_sub_one n
  rw [ssdiv_of_ne_zero (by decide), Int.tdiv_neg, Int.tdiv_one]
  exact sat_of_maxOf_le (by omega)

/-- A divisor other than `1` and `-1` at least halves the magnitude. -/
theorem natAbs_tdiv_le_half {a b : Int} (h : 2 ≤ b.natAbs) : (Int.tdiv a b).natAbs ≤ a.natAbs / 2 := by
  rw [Int.natAbs_tdiv]
  exact Nat.div_le_div_left h (by decide)

/-- Every other quotient is in the range of its dividend: the divisor `1` keeps the dividend, `-1` takes the opposite
of one above `MIN`, and any other halves the magnitude. -/
theorem tdiv_range {n : Nat} {a b : Int} (hmin : minOf n ≤ a) (hmax : a ≤ maxOf n) (hb : b ≠ 0)
    (hfits : ¬(a = minOf n ∧ b = -1)) : minOf n ≤ Int.tdiv a b ∧ Int.tdiv a b ≤ maxOf n := by
  have hbound := minOf_eq_neg_maxOf_sub_one n
  obtain rfl | rfl | hlarge : b = 1 ∨ b = -1 ∨ 2 ≤ b.natAbs := by omega
  · rw [Int.tdiv_one]
    exact ⟨hmin, hmax⟩
  · rw [Int.tdiv_neg, Int.tdiv_one]
    omega
  · have hhalf := natAbs_tdiv_le_half (a := a) hlarge
    omega

/-- Settles O37: `ssmul` is `sat` of the product, and the 32-bit one is exact by `ssmul_32_word16`. -/
theorem saturatingMultiplicationLimitsTheProduct : Obligations.SaturatingMultiplicationLimitsTheProduct :=
  ⟨fun w a b => sat_eq_limitTo w.bits (a * b), fun a b => ⟨ssmul_32_word16 a b, natAbs_mul_word16_le a b⟩, by decide⟩

/-- Settles O38: the overflow by `ssdiv_minOf_neg_one`, every other quotient by `tdiv_range`. -/
theorem saturatingDivisionOverflowsOnlyAtMin : Obligations.SaturatingDivisionOverflowsOnlyAtMin := by
  intro w a b hamin hamax _ _ hb
  refine ⟨?quotient, ?examples⟩
  case quotient =>
    split_ifs with hoverflow
    · obtain ⟨rfl, rfl⟩ := hoverflow
      exact ssdiv_minOf_neg_one w.bits
    · obtain ⟨hmin, hmax⟩ := tdiv_range hamin hamax hb hoverflow
      rw [ssdiv_of_ne_zero hb, sat_of_range hmin hmax]
  case examples =>
    have hzero := ssdiv_zero_left hb w.bits
    cases w <;> exact ⟨by decide, by decide, by decide, by decide, hzero⟩

/-- Settles O35: `ssadd` is `sat` of the sum, which commutes; the signs by `same_sign_of_ssadd_ne`. -/
theorem saturatingAdditionLimitsTheSum : Obligations.SaturatingAdditionLimitsTheSum :=
  ⟨fun w a b => ⟨sat_eq_limitTo w.bits (a + b), congrArg (sat w.bits) (Int.add_comm a b), same_sign_of_ssadd_ne⟩,
    by decide⟩

/-- Settles O36: `sssub` is `sat` of the difference; the signs by `opposite_sign_of_sssub_ne`, `MIN` as second operand
by `sssub_minOf`. -/
theorem saturatingSubtractionLimitsTheDifference : Obligations.SaturatingSubtractionLimitsTheDifference := by
  refine ⟨fun w a b => ⟨sat_eq_limitTo w.bits (a - b), fun hamin hamax hbmin hbmax => ⟨?signs, ?min⟩,
    sssub_minOf le_rfl, sssub_minOf_ne_ssadd_opposite w.bits⟩, by decide⟩
  case signs => exact opposite_sign_of_sssub_ne hamin hamax hbmin hbmax
  case min => exact fun ha => sssub_minOf (by omega)

end Sys2Proof.Machine
end

section
/-! Configuration and access of the PID controller (spec 43_pid_controller.md, R131, R132, R142 to R155, R161, R162):
how a word of a `PID.*` opcode decodes, with and without a `mode` field, and what a command leaves that writes or
reads cells of an existing instance. -/

namespace Sys2Proof.Machine

/-! Decoding of the `PID.*` words. -/

/-- Steps 1 to 4 of R71 passed. -/
theorem decode_eq_op {c : Config} {cw : CmdWord} {o : Opcode} {i : Instr} (hop : (Fields.ofWord cw).op = o.toBits)
    (hinst : o.instOk c (Fields.ofWord cw).instIdx = true) (hfields : (Fields.ofWord cw).fieldsOk o.format = true)
    (hbuild : o.build (Fields.ofWord cw) = some i) : decode c cw = .op i := by
  simp [decode_of_op hop, decodeFields, hinst, hfields, hbuild]

/-- A word of the row's shape passes step 3 of R71 if its `mode` field is not a reserved one. -/
theorem fieldsOk_of_shape {o : Opcode} {cw : CmdWord} (hshape : cw &&& formatMask o.format = rowMatch o)
    (hmode : (Mode.ofBits (Fields.ofWord cw).mode).isSome = true) : (Fields.ofWord cw).fieldsOk o.format = true := by
  obtain ⟨-, hrsv, hinst, hzero, hvalues⟩ := (shape_iff o cw).mp hshape
  exact (fieldsOk_iff _ _).mpr ⟨hrsv, hinst, hzero, hvalues, fun _ => hmode⟩

/-- The clauses of a `PID.*` command without `mode`: its instances are those below `N_PID` (R65). -/
theorem decodesBy_of_pidOpcodes (o : Opcode) {c : Config} {mk : Fields → Instr} (hpid : o.toBits.toNat ∈ pidOpcodes)
    (hmode : o.format.usesMode = false) (hbuild : ∀ f, o.build f = some (mk f)) :
    decodesBy c o.toBits.toNat o c.nPid.toNat mk := by
  refine decodesBy_of_build hmode (fun n => ?_) hbuild
  rw [instOk_of_pidOpcodes hpid]
  exact pidInstOk_eq_false_iff

/-- The clauses of a command with `mode`, which is a `PID.*` command (R61): code 3 for a wrong shape and for a reserved
mode (R66), and step 4 builds its operation from the mode and the fields. -/
theorem decodesByMode_of_build (o : Opcode) {c : Config} {mk : Fields → Mode → Instr}
    (huses : o.format.usesMode = true) (hbuild : ∀ f, o.build f = (Mode.ofBits f.mode).map (mk f)) :
    decodesByMode c o.toBits.toNat o mk := by
  intro cw hopNat
  have hop : (Fields.ofWord cw).op = o.toBits := BitVec.eq_of_toNat_eq hopNat
  have hmodeOps : ∀ n ∈ [0x08, 0x0A], n ∈ pidOpcodes := by decide
  have hinstOk : o.instOk c (Fields.ofWord cw).instIdx = pidInstOk c (Fields.ofWord cw).instIdx :=
    instOk_of_pidOpcodes (hmodeOps _ (usesMode_iff.mp huses)) c _
  refine ⟨fun habsent => ?badInst, fun hpresent => ?present⟩
  case badInst =>
    exact (decode_eq_badInst_iff hop).mpr (hinstOk.trans (pidInstOk_eq_false_iff.mpr habsent))
  case present =>
    have hinst : o.instOk c (Fields.ofWord cw).instIdx = true := hinstOk.trans (pidInstOk_iff.mpr hpresent)
    refine ⟨fun hbad => ?badField, fun m hshape hm => ?op⟩
    case badField =>
      exact (decode_eq_badField_iff hop).mpr
        ⟨hinst, hbad.elim (fieldsOk_eq_false_of_shape_ne hop) fun h => fieldsOk_eq_false_of_reserved_mode huses h⟩
    case op =>
      have hlegal : Mode.ofBits (Fields.ofWord cw).mode = some m := mode_ofBits_eq_some.mpr hm
      refine decode_eq_op hop hinst (fieldsOk_of_shape hshape ?_) ?_
      · rw [hlegal, Option.isSome_some]
      · rw [hbuild, hlegal, Option.map_some]

/-! What a command on an existing instance leaves. -/

theorem onlyPid_setPid_respond (s : State) (p : Inst) (d : Pid) (data : Word16) :
    onlyPid p s ((s.setPid p d).respond data) :=
  ⟨rfl, rfl, rfl, rfl, fun q hq => vector_set_other s.pid p q d hq⟩

/-- A write replaces its instance, answers `(0, 0)` and leaves the rest of the machine (R161). -/
theorem writePid_of_lt {s : State} {p : Inst} (hp : p.val < s.cfg.nPid.toNat) (put : Pid → Pid) :
    ∃ t, writePid s p put = .next t ∧ onlyPid p s t ∧ answers t 0 ∧ t.pid[p] = put s.pid[p] :=
  ⟨_, onPid_of_lt hp _, onlyPid_setPid_respond s p _ 0, answers_respond _ 0, vector_set_same s.pid p _⟩

/-- A read answers with a cell of its instance and writes none (R162). -/
theorem readPid_of_lt {s : State} {p : Inst} (hp : p.val < s.cfg.nPid.toNat) (get : Pid → Word16) :
    ∃ t, readPid s p get = .next t ∧ onlyResponse s t ∧ answers t (get s.pid[p]) :=
  ⟨_, onPid_of_lt hp _, onlyResponse_respond s _, answers_respond s _⟩

/-- Settles O42: decoding by `decodesByMode_of_build`; the operation is one write of the mode, the gains, the limits
and the accumulator, by `writePid_of_lt`. -/
theorem setcfgReplacesTheConfiguration : Obligations.SetcfgReplacesTheConfiguration :=
  ⟨fun _ => decodesByMode_of_build .pidSetcfg rfl fun _ => rfl,
    fun _ m kp ki kd kw lo hi _ hp => writePid_of_lt hp fun c =>
      { c with mode := m.toBits, kp := kp, ki := ki, kd := kd, kw := kw, minLimit := lo, maxLimit := hi
               integralSum := 0 }⟩

/-- Settles O43: decoding by `decodesByMode_of_build`; the write does not look at the mode in force. -/
theorem setmodeZeroesTheAccumulator : Obligations.SetmodeZeroesTheAccumulator :=
  ⟨fun _ => decodesByMode_of_build .pidSetmode rfl fun _ => rfl,
    fun _ m _ hp => writePid_of_lt hp fun c => { c with mode := m.toBits, integralSum := 0 }⟩

/-- Settles O44: each setter is a write of its one cell, by `writePid_of_lt`. -/
theorem settersWriteOneCell : Obligations.SettersWriteOneCell := by
  refine ⟨fun c => ?decoding, fun p v s hp => ?effect⟩
  case decoding =>
    exact ⟨decodesBy_of_pidOpcodes .pidSetkp (by decide) rfl fun _ => rfl,
      decodesBy_of_pidOpcodes .pidSetki (by decide) rfl fun _ => rfl,
      decodesBy_of_pidOpcodes .pidSetkd (by decide) rfl fun _ => rfl,
      decodesBy_of_pidOpcodes .pidSetkw (by decide) rfl fun _ => rfl,
      decodesBy_of_pidOpcodes .pidSetout (by decide) rfl fun _ => rfl,
      decodesBy_of_pidOpcodes .pidSetin (by decide) rfl fun _ => rfl,
      decodesBy_of_pidOpcodes .pidSetsp (by decide) rfl fun _ => rfl⟩
  case effect =>
    exact ⟨writePid_of_lt hp fun c => { c with kp := v },
      writePid_of_lt hp fun c => { c with ki := v },
      writePid_of_lt hp fun c => { c with kd := v },
      writePid_of_lt hp fun c => { c with kw := v },
      writePid_of_lt hp fun c => { c with output := v },
      writePid_of_lt hp fun c => { c with input := v },
      writePid_of_lt hp fun c => { c with setpoint := v }⟩

/-- Settles O45: each getter is a read of its one cell, by `readPid_of_lt`. -/
theorem gettersAnswerOneCell : Obligations.GettersAnswerOneCell := by
  refine ⟨fun c => ?decoding, fun p s hp => ?effect⟩
  case decoding =>
    exact ⟨decodesBy_of_pidOpcodes .pidGetkp (by decide) rfl fun _ => rfl,
      decodesBy_of_pidOpcodes .pidGetki (by decide) rfl fun _ => rfl,
      decodesBy_of_pidOpcodes .pidGetkd (by decide) rfl fun _ => rfl,
      decodesBy_of_pidOpcodes .pidGetkw (by decide) rfl fun _ => rfl,
      decodesBy_of_pidOpcodes .pidGetout (by decide) rfl fun _ => rfl,
      decodesBy_of_pidOpcodes .pidGetin (by decide) rfl fun _ => rfl,
      decodesBy_of_pidOpcodes .pidGetsp (by decide) rfl fun _ => rfl⟩
  case effect =>
    exact ⟨readPid_of_lt hp Pid.kp, readPid_of_lt hp Pid.ki, readPid_of_lt hp Pid.kd, readPid_of_lt hp Pid.kw,
      readPid_of_lt hp Pid.output, readPid_of_lt hp Pid.input, readPid_of_lt hp Pid.setpoint⟩

end Sys2Proof.Machine
end

section
/-! The priority of the rejection codes (spec 60_exceptions.md R185): which words get each of the three codes. -/

namespace Sys2Proof.Machine

/-- Step 3 of R71 passes exactly on the words of the row's shape whose `mode`, where the format uses it, is not
reserved. -/
theorem fieldsOk_iff_shape_and_mode {o : Opcode} {cw : CmdWord} (hop : (Fields.ofWord cw).op = o.toBits) :
    (Fields.ofWord cw).fieldsOk o.format = true ↔
      cw &&& formatMask o.format = rowMatch o ∧ (o.format.usesMode = true → ¬ 6 ≤ (Fields.ofWord cw).mode.toNat) := by
  simp only [fieldsOk_iff, shape_iff, hop, true_and, and_assoc, Option.isSome_iff_ne_none, ne_eq, mode_ofBits_eq_none]

/-- The two causes of code 3: a wrong shape (R63) and a reserved mode (R66). -/
theorem fieldsOk_eq_false_iff {o : Opcode} {cw : CmdWord} (hop : (Fields.ofWord cw).op = o.toBits) :
    (Fields.ofWord cw).fieldsOk o.format = false ↔
      cw &&& formatMask o.format ≠ rowMatch o ∨ o.format.usesMode = true ∧ 6 ≤ (Fields.ofWord cw).mode.toNat := by
  rw [← Bool.not_eq_true, fieldsOk_iff_shape_and_mode hop]
  tauto

/-- A rejection with a code above 1 is decided at the word's opcode: a word without one reports code 1. -/
theorem decode_eq_reject_iff_exists {c : Config} {cw : CmdWord} {r : Rejection} {P : Opcode → Prop}
    (hr : r ≠ .reservedOp) (hP : ∀ o : Opcode, (Fields.ofWord cw).op = o.toBits → (decode c cw = .reject r ↔ P o)) :
    decode c cw = .reject r ↔ ∃ o, Opcode.ofBits (Fields.ofWord cw).op = some o ∧ P o := by
  cases hop : Opcode.ofBits (Fields.ofWord cw).op with
  | none => simp [decode_eq_reservedOp_iff.mpr hop, hr.symm]
  | some o => simp [hP o (opcode_ofBits_eq_some.mp hop)]

/-- Settles O8: the checks of R71 run in the order of the codes, so each code is its own check failed and the earlier
ones passed; the edge step writes a decoder alone. -/
theorem rejectionReportsTheLowestCode : Obligations.RejectionReportsTheLowestCode := by
  refine ⟨fun c cw => ⟨decode_eq_reservedOp_iff, ?badInst, ?badField⟩, fun i ab s t h => ?edge⟩
  case badInst => exact decode_eq_reject_iff_exists (by decide) fun _ hop => decode_eq_badInst_iff hop
  case badField =>
    exact decode_eq_reject_iff_exists (by decide) fun _ hop =>
      (decode_eq_badField_iff hop).trans (and_congr_right' (fieldsOk_eq_false_iff hop))
  case edge =>
    cases h
    exact State.setEnc_rsp s i _

end Sys2Proof.Machine
end

section
/-! The round trip between operations and command words (spec 30_encoding.md R59 to R63, R67, R70 to R72): what an
accepted word is, the fields of a packed word, and packing the fields of an accepted word again. -/

namespace Sys2Proof.Machine

/-! What an accepted word is. -/

/-- A word that decodes to an operation has passed steps 1 to 4 of R71. -/
theorem decode_eq_op_inv {c : Config} {cw : CmdWord} {i : Instr} (h : decode c cw = .op i) :
    ∃ o : Opcode, (Fields.ofWord cw).op = o.toBits ∧ o.instOk c (Fields.ofWord cw).instIdx = true ∧
      (Fields.ofWord cw).fieldsOk o.format = true ∧ o.build (Fields.ofWord cw) = some i ∧ opcodeOf i = some o := by
  cases hof : Opcode.ofBits (Fields.ofWord cw).op with
  | none => cases (decode_eq_reservedOp_iff (c := c).mpr hof).symm.trans h
  | some o =>
    have hop := opcode_ofBits_eq_some.mp hof
    rw [decode_of_op hop] at h
    obtain ⟨-, hr⟩ | ⟨-, -, hr⟩ | ⟨hinst, hfields, j, hbuild, hopcode, hr⟩ :=
      decodeFields_cases c (Fields.ofWord cw) o
    · cases hr.symm.trans h
    · cases hr.symm.trans h
    · cases hr.symm.trans h
      exact ⟨o, hop, hinst, hfields, hbuild, hopcode⟩

/-- Step 2 of R71 is the existence of the operation that step 4 builds (R65). -/
theorem wf_of_build {c : Config} {o : Opcode} {f : Fields} {i : Instr} (h : o.build f = some i) :
    i.wf c = o.instOk c f.instIdx := by
  cases o with
  | pidSetcfg | pidSetmode =>
    obtain ⟨m, -, rfl⟩ := Option.map_eq_some_iff.mp h
    rfl
  | _ => cases h; rfl

/-! Decoding a packed word. -/

/-- The fields that `packWord` packs. -/
def packedFields (o : Opcode) (n : Inst) (mode : BitVec 3) (a0 a1 a2 a3 a4 a5 : Word16) : Fields :=
  { op := o.toBits, inst := BitVec.ofNat 2 n.val, mode := mode, rsv := 0#6
    a0 := a0, a1 := a1, a2 := a2, a3 := a3, a4 := a4, a5 := a5 }

theorem ofWord_packWord (o : Opcode) (n : Inst) (mode : BitVec 3) (a0 a1 a2 a3 a4 a5 : Word16) :
    Fields.ofWord (packWord o n mode a0 a1 a2 a3 a4 a5) = packedFields o n mode a0 a1 a2 a3 a4 a5 :=
  ofWord_toWord _

@[simp] theorem instIdx_packedFields (o : Opcode) (n : Inst) (mode : BitVec 3) (a0 a1 a2 a3 a4 a5 : Word16) :
    (packedFields o n mode a0 a1 a2 a3 a4 a5).instIdx = n :=
  Fin.ext (Nat.mod_eq_of_lt n.isLt)

/-- A packed word decodes to what step 4 builds, if the instance exists and the fields pass step 3. -/
theorem decode_packWord {c : Config} {o : Opcode} {n : Inst} {mode : BitVec 3} {a0 a1 a2 a3 a4 a5 : Word16} {i : Instr}
    (hinst : o.instOk c n = true) (hfields : (packedFields o n mode a0 a1 a2 a3 a4 a5).fieldsOk o.format = true)
    (hbuild : o.build (packedFields o n mode a0 a1 a2 a3 a4 a5) = some i) :
    decode c (packWord o n mode a0 a1 a2 a3 a4 a5) = .op i := by
  have hword := ofWord_packWord o n mode a0 a1 a2 a3 a4 a5
  refine decode_eq_op (o := o) ?_ ?_ ?_ ?_
  · rw [hword]; rfl
  · rwa [hword, instIdx_packedFields]
  · rwa [hword]
  · rwa [hword]

/-- A packed word without `mode` passes step 3 of R71 if the values its format leaves out were packed as zero. -/
theorem fieldsOk_packedFields {o : Opcode} {n : Inst} {a0 a1 a2 a3 a4 a5 : Word16}
    (hinst : o.format.usesInst = true ∨ n = 0) (hmode : o.format.usesMode = false)
    (hvalues : (packedFields o n 0#3 a0 a1 a2 a3 a4 a5).valuesZeroFrom o.format.nValues = true) :
    (packedFields o n 0#3 a0 a1 a2 a3 a4 a5).fieldsOk o.format = true := by
  refine (fieldsOk_iff _ _).mpr ⟨rfl, hinst.imp_right ?_, .inr rfl, hvalues, fun h => ?_⟩
  · rintro rfl; rfl
  · cases hmode.symm.trans h

/-- The same with a `mode` field, which holds one of the six modes. -/
theorem fieldsOk_packedFields_mode {o : Opcode} {n : Inst} {m : Mode} {a0 a1 a2 a3 a4 a5 : Word16}
    (hinst : o.format.usesInst = true) (hmode : o.format.usesMode = true)
    (hvalues : (packedFields o n m.toBits a0 a1 a2 a3 a4 a5).valuesZeroFrom o.format.nValues = true) :
    (packedFields o n m.toBits a0 a1 a2 a3 a4 a5).fieldsOk o.format = true :=
  (fieldsOk_iff _ _).mpr
    ⟨rfl, .inl hinst, .inl hmode, hvalues, fun _ => Option.isSome_iff_exists.mpr ⟨m, mode_ofBits_toBits m⟩⟩

theorem decodePort_packN {c : Config} {o : Opcode} {n : Inst} {mk : Inst → Instr} (hformat : o.format = .n)
    (hbuild : ∀ f, o.build f = some (mk f.instIdx)) (hinst : o.instOk c n = true) :
    decodePort c (packN o n) = .op (mk n) := by
  refine decode_packWord hinst (fieldsOk_packedFields ?_ ?_ ?_) ((hbuild _).trans ?_)
  · rw [hformat]; exact .inl rfl
  · rw [hformat]; rfl
  · rw [hformat]; rfl
  · rw [instIdx_packedFields]

theorem decodePort_packV {c : Config} {o : Opcode} {n : Inst} {v : Word16} {mk : Inst → Word16 → Instr}
    (hformat : o.format = .v) (hbuild : ∀ f, o.build f = some (mk f.instIdx f.a0)) (hinst : o.instOk c n = true) :
    decodePort c (packV o n v) = .op (mk n v) := by
  refine decode_packWord hinst (fieldsOk_packedFields ?_ ?_ ?_) ((hbuild _).trans ?_)
  · rw [hformat]; exact .inl rfl
  · rw [hformat]; rfl
  · rw [hformat]; rfl
  · rw [instIdx_packedFields]; rfl

/-! Packing the fields of an accepted word. -/

theorem packWord_of_fields {o : Opcode} {f : Fields} (hop : f.op = o.toBits) (hrsv : f.rsv = 0#6) :
    packWord o f.instIdx f.mode f.a0 f.a1 f.a2 f.a3 f.a4 f.a5 = f.toWord := by
  have hinst : BitVec.ofNat 2 f.instIdx.val = f.inst := by
    simp [Fields.instIdx]
  rw [packWord, hinst, ← hop, ← hrsv]

theorem ite_eq_of_used_or_zero {α : Type} {P : Prop} [Decidable P] {x zero : α} (h : P ∨ x = zero) :
    (if P then x else zero) = x :=
  ite_eq_left_iff.mpr fun hunused => (h.resolve_left hunused).symm

/-- Packing what the format uses of an accepted word, and zeros elsewhere (R61), gives the word: what the format leaves
out is zero (R63). -/
theorem packWord_of_fieldsOk {o : Opcode} {f : Fields} (hop : f.op = o.toBits)
    (hfields : f.fieldsOk o.format = true) :
    packWord o (if o.format.usesInst then f.instIdx else 0) (if o.format.usesMode then f.mode else 0#3)
      (if 0 < o.format.nValues then f.a0 else 0#16) (if 1 < o.format.nValues then f.a1 else 0#16)
      (if 2 < o.format.nValues then f.a2 else 0#16) (if 3 < o.format.nValues then f.a3 else 0#16)
      (if 4 < o.format.nValues then f.a4 else 0#16) (if 5 < o.format.nValues then f.a5 else 0#16) = f.toWord := by
  obtain ⟨hrsv, hinst, hmode, hvalues, -⟩ := (fieldsOk_iff _ f).mp hfields
  obtain ⟨h0, h1, h2, h3, h4, h5⟩ := (valuesZeroFrom_iff _ f).mp hvalues
  have hidx : o.format.usesInst = true ∨ f.instIdx = 0 :=
    hinst.imp_right fun hzero => Fin.ext (congrArg BitVec.toNat hzero)
  rw [ite_eq_of_used_or_zero hidx, ite_eq_of_used_or_zero hmode, ite_eq_of_used_or_zero h0, ite_eq_of_used_or_zero h1,
    ite_eq_of_used_or_zero h2, ite_eq_of_used_or_zero h3, ite_eq_of_used_or_zero h4, ite_eq_of_used_or_zero h5]
  exact packWord_of_fields hop hrsv

/-- The operation that step 4 of R71 builds from an accepted word encodes to the word that has its fields. -/
theorem encode_of_build {o : Opcode} {f : Fields} {i : Instr} (hop : f.op = o.toBits)
    (hfields : f.fieldsOk o.format = true) (hbuild : o.build f = some i) : encode i = .command f.toWord := by
  rw [← packWord_of_fieldsOk hop hfields]
  cases o with
  | pidSetcfg | pidSetmode =>
    obtain ⟨m, hm, rfl⟩ := Option.map_eq_some_iff.mp hbuild
    rw [mode_ofBits_eq_some.mp hm]
    rfl
  | _ => cases hbuild; rfl

/-- Settles O2: an accepted word is the word of its fields, by `encode_of_build`, and step 2 is `Instr.wf`. -/
theorem acceptedWordIsTheEncoding : Obligations.AcceptedWordIsTheEncoding := by
  intro c cw i h
  obtain ⟨o, hop, hinst, hfields, hbuild, -⟩ := decode_eq_op_inv h
  refine ⟨?_, (wf_of_build hbuild).trans hinst⟩
  rw [encode_of_build hop hfields hbuild, toWord_ofWord]

/-- Settles O1: in every format the word of an operation passes step 3, and step 4 reads the operands back. -/
theorem decodeOfEncodedOperation : Obligations.DecodeOfEncodedOperation := by
  intro c i hwf
  cases i with
  | encStep => rfl
  | encRdtick | encRderr | encRdstate | spdSample
  | pidGetkp | pidGetki | pidGetkd | pidGetkw | pidGetout | pidGetin | pidGetsp =>
    exact decodePort_packN rfl (fun _ => rfl) hwf
  | pidSetkp | pidSetki | pidSetkd | pidSetkw | pidSetout | pidSetin | pidSetsp =>
    exact decodePort_packV rfl (fun _ => rfl) hwf
  | spdDiff => exact decode_packWord rfl (fieldsOk_packedFields (.inr rfl) rfl rfl) rfl
  | pidCompute n =>
    refine decode_packWord hwf (fieldsOk_packedFields (.inl rfl) rfl rfl) ?_
    rw [Opcode.build, instIdx_packedFields]
    rfl
  | pidSetmode n m =>
    refine decode_packWord hwf (fieldsOk_packedFields_mode rfl rfl rfl)
      (Option.map_eq_some_iff.mpr ⟨m, mode_ofBits_toBits m, ?_⟩)
    rw [instIdx_packedFields]
  | pidSetcfg n m =>
    refine decode_packWord hwf (fieldsOk_packedFields_mode rfl rfl rfl)
      (Option.map_eq_some_iff.mpr ⟨m, mode_ofBits_toBits m, ?_⟩)
    rw [instIdx_packedFields]
    rfl

/-- Settles O3: the conditions on the right are steps 1 to 3 of R71, by `fieldsOk_iff_shape_and_mode`. -/
theorem acceptedWordsAreTheTableRows : Obligations.AcceptedWordsAreTheTableRows := by
  intro c cw o
  constructor
  · rintro ⟨i, hdecode, hopcode⟩
    obtain ⟨o', hop, hinst, hfields, -, hopcode'⟩ := decode_eq_op_inv hdecode
    obtain rfl : o' = o := Option.some.inj (hopcode'.symm.trans hopcode)
    obtain ⟨hshape, hmode⟩ := (fieldsOk_iff_shape_and_mode hop).mp hfields
    exact ⟨hshape, hinst, fun huses => not_le.mp (hmode huses)⟩
  · rintro ⟨hshape, hinst, hmode⟩
    obtain ⟨hop, -⟩ := (shape_iff o cw).mp hshape
    have hfields := (fieldsOk_iff_shape_and_mode hop).mpr ⟨hshape, fun huses => not_le.mpr (hmode huses)⟩
    obtain ⟨i, hbuild, hopcode⟩ := build_of_fieldsOk hfields
    exact ⟨i, decode_eq_op hop hinst hfields hbuild, hopcode⟩

/-- Settles O9: the four words of R70, each decoded. -/
theorem workedWordsDecode : Obligations.WorkedWordsDecode := by
  unfold Obligations.WorkedWordsDecode
  decide

end Sys2Proof.Machine
end

section
/-! The operations, once for all: a `PID.*` command as a function of its instance, and everything `exec` can answer
(spec 10_state.md R20, R37; 60_exceptions.md R184, R187). -/

namespace Sys2Proof.Machine

/-! A `PID.*` command as a function of its instance. -/

/-- What a `PID.*` command leaves in its instance `c` and answers; none for a compute in an illegal mode (R187) and for
an operation that is no `PID.*` command. -/
def pidRun (w : IsumWidth) (c : Pid) : Instr → Option (Pid × Word16)
  | .pidSetcfg _ m kp ki kd kw lo hi =>
    some ({ c with mode := m.toBits, kp := kp, ki := ki, kd := kd, kw := kw, minLimit := lo, maxLimit := hi
                   integralSum := 0 }, 0)
  | .pidSetmode _ m => some ({ c with mode := m.toBits, integralSum := 0 }, 0)
  | .pidCompute _ x sp => (Mode.ofBits c.mode).map fun m => (computeStep w m c x sp, (computeStep w m c x sp).output)
  | .pidSetkp _ v => some ({ c with kp := v }, 0)
  | .pidSetki _ v => some ({ c with ki := v }, 0)
  | .pidSetkd _ v => some ({ c with kd := v }, 0)
  | .pidSetkw _ v => some ({ c with kw := v }, 0)
  | .pidSetout _ v => some ({ c with output := v }, 0)
  | .pidSetin _ v => some ({ c with input := v }, 0)
  | .pidSetsp _ v => some ({ c with setpoint := v }, 0)
  | .pidGetkp _ => some (c, c.kp)
  | .pidGetki _ => some (c, c.ki)
  | .pidGetkd _ => some (c, c.kd)
  | .pidGetkw _ => some (c, c.kw)
  | .pidGetout _ => some (c, c.output)
  | .pidGetin _ => some (c, c.input)
  | .pidGetsp _ => some (c, c.setpoint)
  | _ => none

/-- The outcome of a `PID.*` command on the existing instance `p`, from what it does there. -/
def State.pidOutcome (s : State) (p : Inst) : Option (Pid × Word16) → Result
  | some (d, data) => .next ((s.setPid p d).respond data)
  | none => .fault (.illegalMode p)

theorem State.setPid_self (s : State) (p : Inst) : s.setPid p s.pid[p] = s :=
  congrArg (fun pids => { s with pid := pids }) (vector_set_self s.pid p)

/-- A read leaves its instance as it was. -/
theorem readPid_eq_pidOutcome (s : State) (p : Inst) (get : Pid → Word16) :
    readPid s p get = onPid s p (s.pidOutcome p (some (s.pid[p], get s.pid[p]))) := by
  rw [State.pidOutcome, State.setPid_self, readPid]

/-- Every `PID.*` command is `pidRun` on its instance, if the instance exists. -/
theorem exec_of_pidOperand {op : Instr} {p : Inst} (hop : pidOperand op = some p) (s : State) :
    exec op s = onPid s p (s.pidOutcome p (pidRun s.cfg.wIsum s.pid[p] op)) := by
  cases op with
  | encStep | encRdtick | encRderr | encRdstate | spdDiff | spdSample => cases hop
  | pidCompute =>
    cases hop
    refine congrArg (onPid s p) ?_
    rw [pidRun]
    cases Mode.ofBits s.pid[p].mode <;> rfl
  | pidSetcfg | pidSetmode | pidSetkp | pidSetki | pidSetkd | pidSetkw | pidSetout | pidSetin | pidSetsp =>
    cases hop; rfl
  | pidGetkp | pidGetki | pidGetkd | pidGetkw | pidGetout | pidGetin | pidGetsp =>
    cases hop; exact readPid_eq_pidOutcome s p _

theorem exec_of_pidRun {op : Instr} {p : Inst} {s : State} {d : Pid} {data : Word16} (hop : pidOperand op = some p)
    (hp : p.val < s.cfg.nPid.toNat) (hrun : pidRun s.cfg.wIsum s.pid[p] op = some (d, data)) :
    exec op s = .next ((s.setPid p d).respond data) := by
  rw [exec_of_pidOperand hop, onPid_of_lt hp, hrun, State.pidOutcome]

/-- A `PID.*` command is without an outcome on its instance only where it computes in an illegal mode. -/
theorem pidRun_eq_none {w : IsumWidth} {c : Pid} {op : Instr} {p : Inst} (hop : pidOperand op = some p)
    (h : pidRun w c op = none) : (∃ x sp, op = .pidCompute p x sp) ∧ 6 ≤ c.mode.toNat := by
  cases op with
  | encStep | encRdtick | encRderr | encRdstate | spdDiff | spdSample => cases hop
  | pidCompute n x sp =>
    cases hop
    exact ⟨⟨x, sp, rfl⟩, mode_ofBits_eq_none.mp (Option.map_eq_none_iff.mp h)⟩
  | _ => cases h

/-! Everything an operation can answer. -/

/-- How an operation leads from a state to its next state. -/
inductive OpEffect : Instr → State → State → Prop
  /-- The edge step steps its decoder (R84). -/
  | edge (i : Channel) (ab : Pair) (s : State) :
    OpEffect (.encStep i ab) s (s.setEnc i (edgeStep s.enc[i] ab))
  /-- `SPD.SAMPLE` takes a snapshot and answers the movement (R103). -/
  | sample (n : Inst) (i : Channel) (s : State) (hn : n.val = i.val) :
    OpEffect (.spdSample n) s
      ((s.setPrev i s.enc[i].tickCount).respond (speed s.enc[i].tickCount s.spd[i].prevCount))
  /-- A command that only answers (R86 to R88, R102). -/
  | answer (op : Instr) (s : State) (data : Word16) : OpEffect op s (s.respond data)
  /-- A `PID.*` command does `pidRun` on its instance (R131 to R162). -/
  | pid {op : Instr} {p : Inst} {s : State} {d : Pid} {data : Word16} (hop : pidOperand op = some p)
    (hp : p.val < s.cfg.nPid.toNat) (hrun : pidRun s.cfg.wIsum s.pid[p] op = some (d, data)) :
    OpEffect op s ((s.setPid p d).respond data)
  /-- A command on an absent instance is rejected (R65, R184). -/
  | absent (op : Instr) (s : State) : OpEffect op s (s.reject .badInst)

/-- An operation has a next state, reached in one of the ways of `OpEffect`, or it is a compute in an illegal mode and
faults (R187). -/
theorem exec_cases (op : Instr) (s : State) :
    (∃ t, exec op s = .next t ∧ OpEffect op s t) ∨
      ∃ p x sp, op = .pidCompute p x sp ∧ 6 ≤ s.pid[p].mode.toNat ∧ exec op s = .fault (.illegalMode p) := by
  cases hop : pidOperand op with
  | some p =>
    obtain ⟨hp, hexec⟩ | ⟨-, hexec⟩ := onPid_cases s p (s.pidOutcome p (pidRun s.cfg.wIsum s.pid[p] op)) <;>
      rw [← exec_of_pidOperand hop] at hexec
    · cases hrun : pidRun s.cfg.wIsum s.pid[p] op with
      | some result => exact .inl ⟨_, exec_of_pidRun hop hp hrun, .pid hop hp hrun⟩
      | none =>
        obtain ⟨⟨x, sp, rfl⟩, hmode⟩ := pidRun_eq_none hop hrun
        rw [hrun] at hexec
        exact .inr ⟨p, x, sp, rfl, hmode, hexec⟩
    · exact .inl ⟨_, hexec, .absent op s⟩
  | none =>
    refine .inl ?_
    cases op with
    | encStep i ab => exact ⟨_, rfl, .edge i ab s⟩
    | spdDiff => exact ⟨_, rfl, .answer _ s _⟩
    | encRdtick n | encRderr n | encRdstate n =>
      obtain ⟨i, -, hexec⟩ | ⟨-, hexec⟩ := readEnc_cases s n _
      · exact ⟨_, hexec, .answer _ s _⟩
      · exact ⟨_, hexec, .absent _ s⟩
    | spdSample n =>
      obtain ⟨i, hn, hexec⟩ | ⟨-, hexec⟩ := onChannel_cases s n _
      · exact ⟨_, hexec, .sample n i s hn⟩
      · exact ⟨_, hexec, .absent _ s⟩
    | _ => cases hop

theorem exec_next_effect {op : Instr} {s t : State} (h : exec op s = .next t) : OpEffect op s t := by
  obtain ⟨u, hexec, heffect⟩ | ⟨p, x, sp, -, -, hexec⟩ := exec_cases op s <;> cases hexec.symm.trans h
  exact heffect

/-- No operation writes the parameters or the coming cycles (logs 1 and 3). -/
theorem exec_next_cfg_inputs {op : Instr} {s t : State} (h : exec op s = .next t) :
    t.cfg = s.cfg ∧ t.inputs = s.inputs := by
  cases exec_next_effect h <;> exact ⟨rfl, rfl⟩

/-! Operations on absent instances. -/

/-- Settles O46: an operation does not exist exactly where its check of the operand fails, by `onChannel_of_ge` and
`onPid_of_ge`. -/
theorem operationOnAbsentInstanceIsRejected : Obligations.OperationOnAbsentInstanceIsRejected := by
  intro op s hwf
  have hreject : exec op s = .next (s.reject .badInst) := by
    cases op with
    | encStep | spdDiff => cases hwf
    | encRdtick n | encRderr n | encRdstate n | spdSample n => exact onChannel_of_ge (encInstOk_eq_false_iff.mp hwf) _
    | _ => exact onPid_of_ge (pidInstOk_eq_false_iff.mp hwf) _
  exact ⟨_, hreject, ⟨rfl, rfl, rfl, rfl, rfl⟩, State.reject_rsp s _⟩

/-! The cells of the PID instances. -/

/-- A `PID.*` command leaves every cell of its instance that R20's table does not let it write: each cell is listed in
the row of the command, against `hcell`, or its update leaves it out. -/
theorem pidRun_cell {w : IsumWidth} {c d : Pid} {data : Word16} {op : Instr} {p : Inst} {cell : PidCell}
    (hop : pidOperand op = some p) (hrun : pidRun w c op = some (d, data)) (hcell : mayWrite p cell op = false) :
    d.cell cell = c.cell cell := by
  cases op with
  | encStep | encRdtick | encRderr | encRdstate | spdDiff | spdSample => cases hop
  | pidGetkp | pidGetki | pidGetkd | pidGetkw | pidGetout | pidGetin | pidGetsp => cases hrun; rfl
  | pidSetkp | pidSetki | pidSetkd | pidSetkw | pidSetout | pidSetin | pidSetsp | pidSetcfg | pidSetmode =>
    cases hop
    cases hrun
    cases cell <;> simp [mayWrite, pidWrites] at hcell <;> rfl
  | pidCompute =>
    cases hop
    obtain ⟨m, -, hresult⟩ := Option.map_eq_some_iff.mp hrun
    cases hresult
    cases cell <;> simp [mayWrite, pidWrites] at hcell <;> rfl

/-- Settles O47: a `PID.*` command writes its instance alone, and there by `pidRun_cell`; no other operation writes the
PID file. -/
theorem pidCellsHaveOnlyTheirWriters : Obligations.PidCellsHaveOnlyTheirWriters := by
  intro op p cell s t h hcell
  cases exec_next_effect h with
  | @pid _ n _ d data hop hp hrun =>
    rw [State.respond_pid, State.setPid_pid]
    by_cases hpn : p = n
    · subst hpn
      rw [vector_set_same, pidRun_cell hop hrun hcell]
    · rw [vector_set_other _ _ _ _ hpn]
  | _ => rfl

/-- Settles O48: `pidRun` sees the instance and the parameters alone, and the same outcome is written to the other
machine. -/
theorem pidCommandsDependOnTheirInstanceAlone : Obligations.PidCommandsDependOnTheirInstanceAlone := by
  intro op p s₁ s₂ t₁ hop hcfg hpid h
  obtain ⟨hp, hbody⟩ | ⟨hp, hbody⟩ := onPid_cases s₁ p (s₁.pidOutcome p (pidRun s₁.cfg.wIsum s₁.pid[p] op)) <;>
    rw [exec_of_pidOperand hop, hbody] at h
  · cases hrun : pidRun s₁.cfg.wIsum s₁.pid[p] op with
    | none => rw [hrun] at h; cases h
    | some result =>
      rw [hrun] at h
      cases h
      rw [hcfg, hpid] at hrun
      rw [hcfg] at hp
      refine ⟨_, exec_of_pidRun hop hp hrun, ?_, rfl, onlyPid_setPid_respond s₂ p _ _⟩
      exact (vector_set_same s₂.pid p _).trans (vector_set_same s₁.pid p _).symm
  · cases h
    rw [hcfg] at hp
    exact ⟨_, (exec_of_pidOperand hop s₂).trans (onPid_of_ge hp _), hpid.symm, rfl, rfl, rfl, rfl, rfl, fun _ _ => rfl⟩

end Sys2Proof.Machine
end

section
/-! The quadrature decoder (spec 40_quadrature_decoder.md): the edge step by the closed forms of R81 and R85, what it
leaves of the machine, sequences of samples (R15, R90), and the three reads (R86 to R88). -/

namespace Sys2Proof.Machine

/-! The table of R81 and the classification of a step in closed form (R85). -/

theorem nextCounterClockwise_eq_iff : ∀ x y : Pair, nextCounterClockwise x = y ↔ nextClockwise y = x := by decide

theorem classify_nextClockwise : ∀ q : Pair, classify q (nextClockwise q) = .plus := by decide

theorem classify_nextCounterClockwise : ∀ q : Pair, classify q (nextCounterClockwise q) = .minus := by decide

theorem classify_eq_error : ∀ q ab : Pair, ab ≠ nextClockwise q → ab ≠ nextCounterClockwise q →
    classify q ab = .error := by decide

/-- What a transition adds to `tick_count` (R84). -/
def Transition.ticks : Transition → Int
  | .plus => 1
  | .minus => -1
  | .error => 0

/-- What a transition adds to `error_count` (R84). -/
def Transition.errors : Transition → Nat
  | .error => 1
  | .plus | .minus => 0

theorem tickDelta_eq : ∀ q ab : Pair, tickDelta q ab = (classify q ab).ticks := by decide

theorem errors_classify : ∀ q ab : Pair,
    (if sequenceError q ab then 1 else 0) = (classify q ab).errors := by decide

/-! The edge step on one decoder. -/

@[simp] theorem edgeStep_newState (d : Decoder) (ab : Pair) : (edgeStep d ab).newState = ab := by
  cases h : classify d.newState ab <;> simp [edgeStep, h]

theorem edgeStep_plus {d : Decoder} {ab : Pair} (h : classify d.newState ab = .plus) :
    (edgeStep d ab).tickCount = d.tickCount + 1 ∧ (edgeStep d ab).errorCount = d.errorCount := by
  simp [edgeStep, h]

theorem edgeStep_minus {d : Decoder} {ab : Pair} (h : classify d.newState ab = .minus) :
    (edgeStep d ab).tickCount = d.tickCount - 1 ∧ (edgeStep d ab).errorCount = d.errorCount := by
  simp [edgeStep, h]

theorem edgeStep_error {d : Decoder} {ab : Pair} (h : classify d.newState ab = .error) :
    (edgeStep d ab).tickCount = d.tickCount ∧ (edgeStep d ab).errorCount = d.errorCount + 1 := by
  simp [edgeStep, h]

/-- `tick_count` wraps (R13). -/
theorem toInt_edgeStep_tickCount (d : Decoder) (ab : Pair) :
    (edgeStep d ab).tickCount.toInt = wrap16 (d.tickCount.toInt + tickDelta d.newState ab) := by
  rw [tickDelta_eq]
  cases h : classify d.newState ab with
  | plus =>
    rw [(edgeStep_plus h).1]
    exact BitVec.toInt_add d.tickCount 1
  | minus =>
    rw [(edgeStep_minus h).1]
    exact BitVec.toInt_sub
  | error =>
    rw [(edgeStep_error h).1, Transition.ticks, add_zero]
    obtain ⟨hmin, hmax⟩ := word16_range d.tickCount
    exact (wrap16_of_range hmin hmax).symm

/-- `error_count` wraps (R14). -/
theorem toNat_edgeStep_errorCount (d : Decoder) (ab : Pair) :
    (edgeStep d ab).errorCount.toNat =
      (d.errorCount.toNat + if sequenceError d.newState ab then 1 else 0) % 65536 := by
  have hkept : d.errorCount.toNat = (d.errorCount.toNat + 0) % 65536 :=
    (Nat.mod_eq_of_lt d.errorCount.isLt).symm
  rw [errors_classify]
  cases h : classify d.newState ab with
  | plus => rw [(edgeStep_plus h).2]; exact hkept
  | minus => rw [(edgeStep_minus h).2]; exact hkept
  | error => rw [(edgeStep_error h).2]; exact BitVec.toNat_add d.errorCount 1

/-! The edge step on the machine. -/

theorem onlyDecoder_setEnc (i : Channel) (d : Decoder) (s : State) : onlyDecoder i s (s.setEnc i d) :=
  ⟨rfl, rfl, rfl, rfl, rfl, fun j hj => vector_set_other s.enc i j d hj⟩

theorem onlyDecoder_refl (i : Channel) (s : State) : onlyDecoder i s s :=
  ⟨rfl, rfl, rfl, rfl, rfl, fun _ _ => rfl⟩

theorem onlyDecoder_trans {i : Channel} {s t u : State} (hst : onlyDecoder i s t) (htu : onlyDecoder i t u) :
    onlyDecoder i s u := by
  obtain ⟨hcfg, hspd, hpid, hinputs, hrsp, henc⟩ := hst
  obtain ⟨hcfg', hspd', hpid', hinputs', hrsp', henc'⟩ := htu
  exact ⟨hcfg'.trans hcfg, hspd'.trans hspd, hpid'.trans hpid, hinputs'.trans hinputs, hrsp'.trans hrsp,
    fun j hj => (henc' j hj).trans (henc j hj)⟩

/-- In every state the edge step has a next state, in which nothing but its decoder is changed (R84). -/
theorem exec_encStep (i : Channel) (ab : Pair) (s : State) :
    ∃ t, exec (.encStep i ab) s = .next t ∧ onlyDecoder i s t ∧ t.enc[i] = edgeStep s.enc[i] ab :=
  ⟨_, rfl, onlyDecoder_setEnc i _ s, vector_set_same s.enc i _⟩

/-- Settles O22: the decoder is replaced by its edge step, whose counters wrap by `toInt_edgeStep_tickCount` and
`toNat_edgeStep_errorCount`. -/
theorem edgeStepMovesThePairAndOneCounter : Obligations.EdgeStepMovesThePairAndOneCounter := by
  intro i ab s
  obtain ⟨t, hexec, honly, henc⟩ := exec_encStep i ab s
  refine ⟨t, hexec, honly, ?_⟩
  rw [henc]
  exact ⟨edgeStep_oldState _ _, edgeStep_newState _ _, toInt_edgeStep_tickCount _ _, toNat_edgeStep_errorCount _ _⟩

/-- Settles O23: the table over the 16 pairs, and `classify` at its two successors. -/
theorem legalSuccessorsFormTheTwoCycles : Obligations.LegalSuccessorsFormTheTwoCycles := by
  refine ⟨nextCounterClockwise_eq_iff, fun i s => ?_⟩
  obtain ⟨t, ht, -, htenc⟩ := exec_encStep i (nextClockwise s.enc[i].newState) s
  obtain ⟨u, hu, -, huenc⟩ := exec_encStep i (nextCounterClockwise s.enc[i].newState) s
  obtain ⟨hup, huperr⟩ := edgeStep_plus (classify_nextClockwise s.enc[i].newState)
  obtain ⟨hdown, hdownerr⟩ := edgeStep_minus (classify_nextCounterClockwise s.enc[i].newState)
  refine ⟨t, u, ht, hu, ?_⟩
  rw [htenc, huenc]
  exact ⟨hup, hdown, huperr, hdownerr⟩

/-- Settles O25: such a sample is classified as an error, by `classify_eq_error`. -/
theorem illegalTransitionCountsOneError : Obligations.IllegalTransitionCountsOneError := by
  intro i ab s hplus hminus
  obtain ⟨t, hexec, -, henc⟩ := exec_encStep i ab s
  obtain ⟨hticks, herrors⟩ := edgeStep_error (classify_eq_error _ _ hplus hminus)
  refine ⟨t, hexec, ?_⟩
  rw [henc]
  exact ⟨hticks, herrors, edgeStep_newState _ _⟩

/-- Settles O28: the case of the edge step in `exec_next_enc` against all others, and its frame. -/
theorem onlyEdgeStepsWriteDecoders : Obligations.OnlyEdgeStepsWriteDecoders := by
  intro i s t h
  constructor
  · intro hhost
    obtain ⟨ch, ab, rfl, -⟩ | henc := exec_next_enc h
    · cases hhost
    · exact henc
  · rintro ch ab rfl
    cases h
    exact onlyDecoder_setEnc ch _ s

/-! Sequences of samples. -/

theorem wrap16_wrap16_add (x y : Int) : wrap16 (wrap16 x + y) = wrap16 (x + y) := Int.bmod_add_bmod

theorem wrap16_toInt (v : Word16) : wrap16 v.toInt = v.toInt :=
  wrap16_of_range (word16_range v).1 (word16_range v).2

/-- The counters of a channel after any samples on it (R15): each step adds its own tick or error, and a wrap on the
way is lost modulo 2^16. -/
theorem runOps_edgeSteps (i : Channel) (samples : List Pair) (s : State) :
    ∃ t, runOps (edgeSteps i samples) s = .next t ∧ onlyDecoder i s t ∧
      t.enc[i].tickCount.toInt = wrap16 (s.enc[i].tickCount.toInt + netTicks s.enc[i].newState samples) ∧
      t.enc[i].errorCount.toNat = (s.enc[i].errorCount.toNat + errorSteps s.enc[i].newState samples) % 65536 := by
  induction samples generalizing s with
  | nil =>
    refine ⟨s, rfl, onlyDecoder_refl i s, ?_, (Nat.mod_eq_of_lt s.enc[i].errorCount.isLt).symm⟩
    rw [netTicks, add_zero, wrap16_toInt]
  | cons ab rest ih =>
    obtain ⟨u, hexec, honly, henc⟩ := exec_encStep i ab s
    obtain ⟨t, hrun, honly', hticks, herrors⟩ := ih u
    rw [henc, edgeStep_newState, toInt_edgeStep_tickCount, wrap16_wrap16_add, add_assoc] at hticks
    rw [henc, edgeStep_newState, toNat_edgeStep_errorCount, Nat.mod_add_mod, add_assoc] at herrors
    refine ⟨t, ?_, onlyDecoder_trans honly honly', hticks, herrors⟩
    change thenRun (exec (.encStep i ab) s) (runOps (edgeSteps i rest)) = .next t
    rw [hexec, thenRun_of_next, hrun]

/-- Settles O26: `runOps_edgeSteps`, by induction on the samples. -/
theorem countersSumTheTransitions : Obligations.CountersSumTheTransitions := runOps_edgeSteps

theorem netTicks_clockwiseFrom (q : Pair) (n : Nat) : netTicks q (clockwiseFrom q n) = n := by
  induction n generalizing q with
  | zero => rfl
  | succ n ih =>
    rw [clockwiseFrom, netTicks, tickDelta_eq, classify_nextClockwise, ih, Transition.ticks]
    omega

theorem netTicks_counterClockwiseFrom (q : Pair) (n : Nat) : netTicks q (counterClockwiseFrom q n) = -n := by
  induction n generalizing q with
  | zero => rfl
  | succ n ih =>
    rw [counterClockwiseFrom, netTicks, tickDelta_eq, classify_nextCounterClockwise, ih, Transition.ticks]
    omega

theorem errorSteps_clockwiseFrom (q : Pair) (n : Nat) : errorSteps q (clockwiseFrom q n) = 0 := by
  induction n generalizing q with
  | zero => rfl
  | succ n ih => rw [clockwiseFrom, errorSteps, errors_classify, classify_nextClockwise, ih, Transition.errors]

theorem errorSteps_counterClockwiseFrom (q : Pair) (n : Nat) : errorSteps q (counterClockwiseFrom q n) = 0 := by
  induction n generalizing q with
  | zero => rfl
  | succ n ih =>
    rw [counterClockwiseFrom, errorSteps, errors_classify, classify_nextCounterClockwise, ih, Transition.errors]

/-- Samples without an error step leave `error_count`. -/
theorem runOps_edgeSteps_legal (i : Channel) {samples : List Pair} {s : State}
    (hlegal : errorSteps s.enc[i].newState samples = 0) :
    ∃ t, runOps (edgeSteps i samples) s = .next t ∧
      t.enc[i].tickCount.toInt = wrap16 (s.enc[i].tickCount.toInt + netTicks s.enc[i].newState samples) ∧
      t.enc[i].errorCount = s.enc[i].errorCount := by
  obtain ⟨t, hrun, -, hticks, herrors⟩ := runOps_edgeSteps i samples s
  refine ⟨t, hrun, hticks, BitVec.eq_of_toNat_eq ?_⟩
  rw [herrors, hlegal, add_zero, Nat.mod_eq_of_lt s.enc[i].errorCount.isLt]

/-- Settles O24: the sums of `runOps_edgeSteps` along the two legal cycles. -/
theorem cyclesCountOneTickPerStep : Obligations.CyclesCountOneTickPerStep := by
  intro i n s
  constructor
  · obtain ⟨t, hrun, hticks, herrors⟩ := runOps_edgeSteps_legal i (errorSteps_clockwiseFrom s.enc[i].newState n)
    rw [netTicks_clockwiseFrom] at hticks
    exact ⟨t, hrun, hticks, herrors⟩
  · obtain ⟨t, hrun, hticks, herrors⟩ :=
      runOps_edgeSteps_legal i (errorSteps_counterClockwiseFrom s.enc[i].newState n)
    rw [netTicks_counterClockwiseFrom, ← sub_eq_add_neg] at hticks
    exact ⟨t, hrun, hticks, herrors⟩

/-! The three reads. -/

/-- The clauses of a command that is checked against `N_ENC` (R65). -/
theorem decodesBy_of_decoderOpcodes (o : Opcode) {c : Config} {mk : Fields → Instr}
    (henc : o.toBits.toNat ∈ decoderOpcodes) (hmode : o.format.usesMode = false)
    (hbuild : ∀ f, o.build f = some (mk f)) : decodesBy c o.toBits.toNat o 2 mk := by
  refine decodesBy_of_build hmode (fun n => ?_) hbuild
  rw [instOk_of_decoderOpcodes henc]
  exact encInstOk_eq_false_iff

/-- A read of an existing decoder answers its value and changes nothing (R86 to R88). -/
theorem readEnc_of_lt {s : State} {n : Inst} {i : Channel} (hn : n.val = i.val) (get : Decoder → Word16) :
    ∃ t, readEnc s n get = .next t ∧ onlyResponse s t ∧ answers t (get s.enc[i]) :=
  ⟨_, onChannel_of_lt hn _, onlyResponse_respond s _, answers_respond s _⟩

theorem packStates_fields (d : Decoder) :
    (packStates d).extractLsb' 2 2 = d.oldState ∧ (packStates d).extractLsb' 0 2 = d.newState ∧
      (packStates d).toNat < 16 := by
  have pairs : ∀ old new : Pair, ((old ++ new).setWidth 16).extractLsb' 2 2 = old ∧
      ((old ++ new).setWidth 16).extractLsb' 0 2 = new ∧ ((old ++ new).setWidth 16).toNat < 16 := by decide
  exact pairs d.oldState d.newState

/-- Settles O29: decoding by `decodesBy_of_decoderOpcodes`; each operation is a read, by `readEnc_of_lt`. -/
theorem decoderReadsAnswerTheCells : Obligations.DecoderReadsAnswerTheCells := by
  refine ⟨fun c => ⟨decodesBy_of_decoderOpcodes .encRdtick (by decide) rfl fun _ => rfl,
    decodesBy_of_decoderOpcodes .encRderr (by decide) rfl fun _ => rfl,
    decodesBy_of_decoderOpcodes .encRdstate (by decide) rfl fun _ => rfl⟩, fun i n s hn => ?_⟩
  obtain ⟨t, hexec, honly, hanswer⟩ := readEnc_of_lt (s := s) hn packStates
  exact ⟨readEnc_of_lt hn Decoder.tickCount, readEnc_of_lt hn Decoder.errorCount,
    t, packStates s.enc[i], hexec, honly, hanswer, packStates_fields s.enc[i]⟩

end Sys2Proof.Machine
end

section
/-! The snapshots of the speed estimators (spec 41_speed_estimator.md R103; 10_state.md R16): `SPD.SAMPLE` takes one,
nothing else writes one, and the sampled values add up to the movement. -/

namespace Sys2Proof.Machine

theorem onlyEstimator_setPrev_respond (s : State) (i : Channel) (snapshot data : Word16) :
    onlyEstimator i s ((s.setPrev i snapshot).respond data) :=
  ⟨rfl, rfl, rfl, rfl, fun j hj => vector_set_other s.spd i j _ hj⟩

/-- `SPD.SAMPLE` of an existing channel keeps the live counter and answers its movement (R103). -/
theorem exec_spdSample_of_lt {s : State} {n : Inst} {i : Channel} (hn : n.val = i.val) :
    ∃ t, exec (.spdSample n) s = .next t ∧ onlyEstimator i s t ∧ t.spd[i].prevCount = s.enc[i].tickCount ∧
      answers t (speed s.enc[i].tickCount s.spd[i].prevCount) := by
  refine ⟨_, onChannel_of_lt hn _, onlyEstimator_setPrev_respond s i _ _, ?_, answers_respond _ _⟩
  exact congrArg Estimator.prevCount (vector_set_same s.spd i _)

/-- Settles O32: decoding by `decodesBy_of_decoderOpcodes`; the answer is the wrapped difference, by `toInt_speed`. -/
theorem speedSampleKeepsTheSnapshot : Obligations.SpeedSampleKeepsTheSnapshot := by
  refine ⟨fun c => decodesBy_of_decoderOpcodes .spdSample (by decide) rfl fun _ => rfl, fun i n s hn => ?_⟩
  obtain ⟨t, hexec, honly, hkept, hanswer⟩ := exec_spdSample_of_lt (s := s) hn
  exact ⟨t, _, hexec, honly, hkept, hanswer, toInt_speed _ _⟩

/-- Every operation but `SPD.SAMPLE` leaves the snapshots as they were (R16). -/
theorem exec_next_spd {op : Instr} {s t : State} (hop : ∀ n, op ≠ .spdSample n) (h : exec op s = .next t) :
    t.spd = s.spd := by
  cases exec_next_effect h with
  | sample n => exact absurd rfl (hop n)
  | _ => rfl

/-- All that `SPD.SAMPLE` can do to the snapshots: take the one of its own channel, or, rejected, none. -/
theorem exec_spdSample_next {n : Inst} {s t : State} (h : exec (.spdSample n) s = .next t) :
    (∃ i : Channel, n.val = i.val ∧ onlyEstimator i s t ∧ t.spd[i].prevCount = s.enc[i].tickCount ∧
        answers t (speed s.enc[i].tickCount s.spd[i].prevCount)) ∨
      (2 ≤ n.val ∧ t = s.reject .badInst) := by
  obtain ⟨i, hn, -⟩ | ⟨hge, -⟩ := channelOf_cases n
  · obtain ⟨u, hexec, heffect⟩ := exec_spdSample_of_lt (s := s) hn
    cases hexec.symm.trans h
    exact .inl ⟨i, hn, heffect⟩
  · cases (onChannel_of_ge hge _).symm.trans h
    exact .inr ⟨hge, rfl⟩

/-- Settles O34: a changed snapshot means `SPD.SAMPLE`, by `exec_next_spd`, and then one of its own channel. -/
theorem onlySampleWritesTheSnapshot : Obligations.OnlySampleWritesTheSnapshot := by
  intro op ch s t h hchanged
  by_cases hop : ∃ n, op = .spdSample n
  · obtain ⟨n, rfl⟩ := hop
    obtain ⟨i, hn, ⟨-, -, -, -, hkept⟩, -⟩ | ⟨-, rfl⟩ := exec_spdSample_next h
    · have hch : ch = i := by_contra fun hne => hchanged (hkept ch hne)
      exact ⟨n, hch ▸ hn, rfl⟩
    · exact absurd rfl hchanged
  · have hspd : t.spd = s.spd := exec_next_spd (fun n e => hop ⟨n, e⟩) h
    rw [hspd] at hchanged
    exact absurd rfl hchanged

/-! The sum of the sampled values. -/

theorem sampleValue_of_ne {n : Inst} {op : Instr} (t : State) (hop : ∀ m, op ≠ .spdSample m) :
    sampleValue n op t = 0 := by
  cases op with
  | spdSample m => exact absurd rfl (hop m)
  | _ => rfl

theorem sampleValue_of_rsp {m : Inst} {t : State} {r : Response} (n : Inst) (h : t.rsp = some r) :
    sampleValue n (.spdSample m) t = if m = n then sext r.data else 0 := by
  simp [sampleValue, h]

/-- One operation moves the snapshot of a channel by what it contributes to the sum, modulo 2^16. -/
theorem exec_moves_snapshot {i : Channel} {n : Inst} {op : Instr} {s t : State} (hn : n.val = i.val)
    (h : exec op s = .next t) :
    wrap16 (t.spd[i].prevCount.toInt - s.spd[i].prevCount.toInt) = wrap16 (sampleValue n op t) := by
  by_cases hop : ∃ m, op = .spdSample m
  · obtain ⟨m, rfl⟩ := hop
    obtain ⟨j, hm, ⟨-, henc, -, -, hkept⟩, htaken, hanswer⟩ | ⟨hge, rfl⟩ := exec_spdSample_next h
    · rw [sampleValue_of_rsp n hanswer]
      by_cases hij : i = j
      · subst hij
        rw [if_pos (Fin.ext (hm.trans hn.symm)), sext, toInt_speed, htaken]
        exact Int.bmod_bmod.symm
      · have hmn : m ≠ n := fun e => hij (Fin.ext (hn.symm.trans (e ▸ hm)))
        rw [if_neg hmn, hkept i hij, sub_self]
    · rw [sampleValue_of_rsp n (State.reject_rsp s _), State.reject_spd, sub_self]
      exact congrArg wrap16 (ite_self _).symm
  · have hne : ∀ m, op ≠ .spdSample m := fun m e => hop ⟨m, e⟩
    rw [exec_next_spd hne h, sampleValue_of_ne t hne, sub_self]

theorem wrap16_add_congr {a b c d : Int} (hab : wrap16 a = wrap16 b) (hcd : wrap16 c = wrap16 d) :
    wrap16 (a + c) = wrap16 (b + d) :=
  calc wrap16 (a + c) = wrap16 (wrap16 a + wrap16 c) := Int.add_bmod a c 65536
    _ = wrap16 (wrap16 b + wrap16 d) := by rw [hab, hcd]
    _ = wrap16 (b + d) := (Int.add_bmod b d 65536).symm

/-- Settles O33: by induction on the operations, each moving the snapshot by what it contributes. -/
theorem samplesAddUpToTheSnapshot : Obligations.SamplesAddUpToTheSnapshot := by
  intro i n ops s t hn
  induction ops generalizing s with
  | nil =>
    intro h
    cases h
    rw [sampleSum, sub_self]
  | cons op rest ih =>
    intro h
    obtain ⟨u, hexec, hrest⟩ := thenRun_next h
    have hsplit : t.spd[i].prevCount.toInt - s.spd[i].prevCount.toInt =
        (u.spd[i].prevCount.toInt - s.spd[i].prevCount.toInt) +
          (t.spd[i].prevCount.toInt - u.spd[i].prevCount.toInt) := by omega
    have hsum : sampleSum n (op :: rest) s = sampleValue n op u + sampleSum n rest u := by simp [sampleSum, hexec]
    rw [hsplit, hsum]
    exact wrap16_add_congr (exec_moves_snapshot hn hexec) (ih u hrest)

end Sys2Proof.Machine
end

section
/-! The clock cycle (spec 30_encoding.md R55 to R57; 60_exceptions.md R187 to R191; 70_reset_and_hazards.md R210, R211,
R232): what the command port sees, what the cycle leaves of it, and the invariant (10_state.md R36). -/

namespace Sys2Proof.Machine

/-! The state the command port sees. -/

/-- The state in which a cycle without reset executes its command: the pins taken, the response cleared, both event
ports done (R191). -/
def State.atCommand (s : State) : State :=
  (s.takePins.noResponse.afterEvent 0 s.pins.evt[0]).afterEvent 1 s.pins.evt[1]

theorem step_of_not_reset {s : State} (hrst : s.pins.rst = false) : step s = runCommand s.pins.cmd s.atCommand := by
  rw [step, cycleStep, runCycle, if_neg (by rw [hrst]; decide)]
  simp only [runEvent_eq_afterEvent, thenRun_of_next, State.atCommand]

theorem step_of_reset {s : State} (hrst : s.pins.rst = true) : step s = .next s.takePins.resetAll :=
  runCycle_reset hrst s.takePins

@[simp] theorem State.atCommand_cfg (s : State) : s.atCommand.cfg = s.cfg := rfl
@[simp] theorem State.atCommand_pid (s : State) : s.atCommand.pid = s.pid := rfl
@[simp] theorem State.atCommand_inputs (s : State) : s.atCommand.inputs = s.inputs.tail := rfl

theorem State.afterEvent_enc_same (i : Channel) (e : Option Pair) (s : State) :
    (s.afterEvent i e).enc[i] = s.enc[i].afterEvent e := vector_set_same s.enc i _

theorem State.afterEvent_enc_other {i j : Channel} (hij : j ≠ i) (e : Option Pair) (s : State) :
    (s.afterEvent i e).enc[j] = s.enc[j] := vector_set_other s.enc i j _ hij

/-- Each event port has stepped its own decoder, whatever the other did (R53). -/
theorem State.atCommand_enc (s : State) (i : Channel) : s.atCommand.enc[i] = s.enc[i].afterEvent s.pins.evt[i] := by
  match i with
  | 0 =>
    exact (State.afterEvent_enc_other (by decide) _ _).trans (State.afterEvent_enc_same 0 _ s.takePins.noResponse)
  | 1 =>
    refine (State.afterEvent_enc_same 1 _ _).trans (congrArg (Decoder.afterEvent · _) ?_)
    exact State.afterEvent_enc_other (by decide) _ s.takePins.noResponse

/-! Cycles that present one thing or nothing. -/

theorem step_of_commandOnly {s : State} {cmd : Option CmdWord} (hpins : s.pins = Cycle.commandOnly cmd) :
    step s = runCommand cmd s.takePins.noResponse :=
  (congrArg (runCycle · s.takePins) hpins).trans (runCycle_commandOnly cmd _)

theorem step_of_eventOnly {s : State} {i : Channel} {e : Option Pair} (hpins : s.pins = Cycle.eventOnly i e) :
    step s = .next (s.takePins.noResponse.afterEvent i e) :=
  (congrArg (runCycle · s.takePins) hpins).trans (runCycle_eventOnly i e _)

/-- Settles O11: the command port runs what the word decodes to, and an event port the edge step. -/
theorem stepRunsThePresentedOperation : Obligations.StepRunsThePresentedOperation := by
  refine ⟨fun s cw i hpins hdecode => ?command, fun s i ab hpins => ?event⟩
  case command =>
    have hdecode' : decode s.takePins.noResponse.cfg cw = .op i := hdecode
    rw [step_of_commandOnly (cmd := some cw) hpins, runCommand, hdecode']
  case event => exact (step_of_eventOnly hpins).trans (runEvent_eq_afterEvent i (some ab) _).symm

/-- Settles O12: the rejection of `step_of_rejected` writes the response port alone. -/
theorem rejectedWordChangesNothing : Obligations.RejectedWordChangesNothing := by
  intro s cw r hpins hdecode
  refine ⟨_, step_of_rejected hpins hdecode, ⟨rfl, rfl, rfl, rfl, rfl⟩, ?_⟩
  cases r <;> rfl

/-- Settles O14: a cycle of the command port alone, without a command. -/
theorem idleCycleChangesNothing : Obligations.IdleCycleChangesNothing := by
  intro s hpins
  exact step_of_commandOnly (cmd := none) hpins

/-- Settles O13: `step_of_reset`, and every instance of the reset state is at reset, by `resetWith_instances`. -/
theorem resetCycleClearsEveryField : Obligations.ResetCycleClearsEveryField := by
  intro s hrst
  obtain ⟨hchannels, hpids⟩ := resetWith_instances s.cfg
  refine ⟨_, step_of_reset hrst, rfl, rfl, rfl, fun i => ?channel, fun p cell => ?pid⟩
  case channel =>
    obtain ⟨henc, hspd⟩ := hchannels i
    exact ⟨henc, congrArg Estimator.prevCount hspd⟩
  case pid =>
    have hpid : s.takePins.resetAll.pid[p] = Pid.reset := hpids p
    rw [hpid]
    cases cell <;> rfl

/-! What the command port leaves. -/

/-- No command word decodes to an edge step (R56). -/
theorem isEdgeStep_of_decode {c : Config} {cw : CmdWord} {op : Instr} (h : decode c cw = .op op) :
    isEdgeStep op = false := by
  obtain ⟨o, -, -, -, -, hopcode⟩ := decode_eq_op_inv h
  cases op with
  | encStep => cases hopcode
  | _ => rfl

/-- The command port writes no decoder, no parameter and no coming cycle. -/
theorem runCommand_next_frame {cmd : Option CmdWord} {s t : State} (h : runCommand cmd s = .next t) :
    t.enc = s.enc ∧ t.cfg = s.cfg ∧ t.inputs = s.inputs := by
  obtain ⟨-, hr⟩ | ⟨cw, op, -, hdecode, hr⟩ | ⟨cw, r, -, -, hr⟩ := runCommand_cases cmd s
  · cases hr.symm.trans h
    exact ⟨rfl, rfl, rfl⟩
  · have hexec := hr.symm.trans h
    exact ⟨(onlyEdgeStepsWriteDecoders op s t hexec).1 (isEdgeStep_of_decode hdecode), exec_next_cfg_inputs hexec⟩
  · cases hr.symm.trans h
    exact ⟨rfl, rfl, rfl⟩

/-- Settles O17: a reset and the command port both leave the parameters and the coming cycles. -/
theorem stepKeepsParametersAndTakesOneCycle : Obligations.StepKeepsParametersAndTakesOneCycle := by
  intro s t h
  cases hrst : s.pins.rst with
  | true =>
    cases (step_of_reset hrst).symm.trans h
    exact ⟨rfl, rfl⟩
  | false =>
    obtain ⟨-, hcfg, hinputs⟩ := runCommand_next_frame ((step_of_not_reset hrst).symm.trans h)
    exact ⟨hcfg.trans s.atCommand_cfg, hinputs.trans s.atCommand_inputs⟩

/-- Settles O16: the command port keeps the decoders as the event ports left them, by `State.atCommand_enc`. -/
theorem edgeEventsExecuteWhateverTheHostDoes : Obligations.EdgeEventsExecuteWhateverTheHostDoes := by
  intro s t i hrst h
  obtain ⟨henc, -, -⟩ := runCommand_next_frame ((step_of_not_reset hrst).symm.trans h)
  have hdecoder : t.enc[i] = s.enc[i].afterEvent s.pins.evt[i] := by rw [henc, State.atCommand_enc]
  refine ⟨fun ab hevent => ?event, fun hnone => ?none⟩
  case event =>
    obtain ⟨u, hexec, -, hstepped⟩ := exec_encStep i ab s
    refine ⟨u, hexec, ?_⟩
    rw [hdecoder, hevent, hstepped, Decoder.afterEvent]
  case none => rw [hdecoder, hnone, Decoder.afterEvent]

/-! Stops. -/

/-- The command port goes on, or it executes a compute in an illegal mode. -/
theorem runCommand_next_or_fault (cmd : Option CmdWord) (s : State) :
    (∃ t, runCommand cmd s = .next t) ∨
      ∃ p x sp cw, cmd = some cw ∧ decode s.cfg cw = .op (.pidCompute p x sp) ∧ 6 ≤ s.pid[p].mode.toNat ∧
        runCommand cmd s = .fault (.illegalMode p) := by
  obtain ⟨-, hr⟩ | ⟨cw, op, hcmd, hdecode, hr⟩ | ⟨cw, r, -, -, hr⟩ := runCommand_cases cmd s
  · exact .inl ⟨s, hr⟩
  · obtain ⟨t, hexec, -⟩ | ⟨p, x, sp, rfl, hmode, hexec⟩ := exec_cases op s
    · exact .inl ⟨t, hr.trans hexec⟩
    · exact .inr ⟨p, x, sp, cw, hcmd, hdecode, hmode, hr.trans hexec⟩
  · exact .inl ⟨_, hr⟩

/-- A step goes on, or its cycle presents, without reset, a compute in an illegal mode (R187). -/
theorem step_next_or_fault (s : State) :
    (∃ t, step s = .next t) ∨
      ∃ p x sp cw, step s = .fault (.illegalMode p) ∧ 6 ≤ s.pid[p].mode.toNat ∧ s.pins.rst = false ∧
        s.pins.cmd = some cw ∧ decode s.cfg cw = .op (.pidCompute p x sp) := by
  cases hrst : s.pins.rst with
  | true => exact .inl ⟨_, step_of_reset hrst⟩
  | false =>
    rw [step_of_not_reset hrst]
    obtain hnext | ⟨p, x, sp, cw, hcmd, hdecode, hmode, hfault⟩ := runCommand_next_or_fault s.pins.cmd s.atCommand
    · exact .inl hnext
    · rw [State.atCommand_cfg] at hdecode
      rw [State.atCommand_pid] at hmode
      exact .inr ⟨p, x, sp, cw, hfault, hmode, rfl, hcmd, hdecode⟩

/-- Settles O21: the two cases of `step_next_or_fault`. -/
theorem onlyAnIllegalModeFaults : Obligations.OnlyAnIllegalModeFaults := by
  intro s
  obtain ⟨t, hnext⟩ | ⟨p, x, sp, cw, hfault, hcause⟩ := step_next_or_fault s
  · rw [hnext]
    exact ⟨fun r h => (nomatch h), fun f h => (nomatch h)⟩
  · rw [hfault]
    refine ⟨fun r h => (nomatch h), fun f h => ?_⟩
    cases h
    exact ⟨p, x, sp, cw, rfl, hcause⟩

theorem legalMode_iff {c : Pid} : legalMode c = true ↔ c.mode.toNat < 6 := by
  rw [legalMode, Option.isSome_iff_ne_none, ne_eq, mode_ofBits_eq_none, not_le]

/-- The three parts of a legal slot. -/
theorem pidSlotOk_iff {g : Config} {p : Inst} {c : Pid} :
    pidSlotOk g p c = true ↔
      legalMode c = true ∧ sumFits g.wIsum c = true ∧ (p.val < g.nPid.toNat ∨ c = Pid.reset) := by
  simp only [pidSlotOk, Bool.and_eq_true, Bool.or_eq_true, decide_eq_true_eq, pidInstOk_iff, and_assoc]

theorem State.Inv.mode_lt {s : State} (hs : s.Inv) (p : Inst) : s.pid[p].mode.toNat < 6 :=
  legalMode_iff.mp (pidSlotOk_iff.mp (hs.1 p)).1

theorem exec_progress {s : State} (hs : s.Inv) (op : Instr) : ∃ t, exec op s = .next t := by
  obtain ⟨t, hexec, -⟩ | ⟨p, x, sp, -, hmode, -⟩ := exec_cases op s
  · exact ⟨t, hexec⟩
  · exact absurd hmode (not_le.mpr (hs.mode_lt p))

/-- Settles O20: the one cause of a fault is against the invariant. -/
theorem legalMachineNeverStops : Obligations.LegalMachineNeverStops := by
  intro s hs
  obtain hnext | ⟨p, x, sp, cw, -, hmode, -⟩ := step_next_or_fault s
  · exact hnext
  · exact absurd hmode (not_le.mpr (hs.mode_lt p))

/-! The invariant. -/

/-- All that a `PID.*` command does to the mode and the accumulator. -/
theorem pidRun_mode_integralSum {w : IsumWidth} {c d : Pid} {data : Word16} {op : Instr}
    (h : pidRun w c op = some (d, data)) :
    (d.mode = c.mode ∧ d.integralSum = c.integralSum) ∨ ((∃ m : Mode, d.mode = m.toBits) ∧ d.integralSum = 0) ∨
      ∃ p x sp m, op = .pidCompute p x sp ∧ Mode.ofBits c.mode = some m ∧ d = computeStep w m c x sp := by
  cases op with
  | encStep | encRdtick | encRderr | encRdstate | spdDiff | spdSample => cases h
  | pidCompute p x sp =>
    obtain ⟨m, hm, hresult⟩ := Option.map_eq_some_iff.mp h
    cases hresult
    exact .inr (.inr ⟨p, x, sp, m, rfl, hm, rfl⟩)
  | pidSetcfg n m | pidSetmode n m => cases h; exact .inr (.inl ⟨⟨m, rfl⟩, rfl⟩)
  | _ => cases h; exact .inl ⟨rfl, rfl⟩

theorem legalMode_of_mode_eq {c : Pid} {m : Mode} (h : c.mode = m.toBits) : legalMode c = true := by
  rw [legalMode, h, mode_ofBits_toBits, Option.isSome_some]

/-- A stored signed value of `W_ISUM` bits reads back as itself (log 4). -/
theorem toInt_cellSum_sat (w : IsumWidth) (x : Int) : (cellSum (sat w.bits x)).toInt = sat w.bits x := by
  obtain ⟨hmin, hmax⟩ := sat_range w x
  refine toInt_cellSum ?_
  cases w
  · exact ⟨(show (-2147483648 : Int) ≤ minOf 16 by decide).trans hmin, hmax.trans (by decide)⟩
  · exact ⟨hmin, hmax⟩

theorem sumFits_iff {w : IsumWidth} {c : Pid} :
    sumFits w c = true ↔ minOf w.bits ≤ c.integralSum.toInt ∧ c.integralSum.toInt ≤ maxOf w.bits := by
  simp [sumFits]

theorem sumFits_computeStep (w : IsumWidth) (m : Mode) (c : Pid) (x sp : Word16) :
    sumFits w (computeStep w m c x sp) = true := by
  rw [sumFits_iff, computeStep, integralUpdate, sssub, toInt_cellSum_sat]
  exact sat_range w _

theorem sumFits_of_integralSum_eq_zero (w : IsumWidth) {c : Pid} (h : c.integralSum = 0) : sumFits w c = true := by
  rw [sumFits_iff, h]
  cases w <;> decide

theorem pidRun_keeps_pidSlotOk {g : Config} {p : Inst} {c d : Pid} {data : Word16} {op : Instr}
    (hp : p.val < g.nPid.toNat) (hc : pidSlotOk g p c = true) (h : pidRun g.wIsum c op = some (d, data)) :
    pidSlotOk g p d = true := by
  obtain ⟨hmode, hsum, -⟩ := pidSlotOk_iff.mp hc
  suffices hparts : legalMode d = true ∧ sumFits g.wIsum d = true from
    pidSlotOk_iff.mpr ⟨hparts.1, hparts.2, .inl hp⟩
  obtain ⟨hmode', hsum'⟩ | ⟨⟨m, hmode'⟩, hsum'⟩ | ⟨_, x, sp, m, -, -, rfl⟩ := pidRun_mode_integralSum h
  · rw [legalMode, sumFits, hmode', hsum']
    exact ⟨hmode, hsum⟩
  · exact ⟨legalMode_of_mode_eq hmode', sumFits_of_integralSum_eq_zero _ hsum'⟩
  · exact ⟨hmode, sumFits_computeStep _ m c x sp⟩

theorem responseOk_rejection (r : Rejection) : responseOk (some { code := rejectionCode r, data := 0 }) = true := by
  cases r <;> rfl

theorem exec_keeps_inv {op : Instr} {s t : State} (hs : s.Inv) (h : exec op s = .next t) : t.Inv := by
  obtain ⟨hslots, hrsp⟩ := hs
  cases exec_next_effect h with
  | edge => exact ⟨hslots, hrsp⟩
  | sample | answer => exact ⟨hslots, rfl⟩
  | absent => exact ⟨hslots, responseOk_rejection _⟩
  | @pid _ p _ d data hop hp hrun =>
    refine ⟨fun q => ?_, rfl⟩
    rw [State.respond_pid, State.setPid_pid]
    by_cases hq : q = p
    · subst hq
      rw [vector_set_same]
      exact pidRun_keeps_pidSlotOk hp (hslots q) hrun
    · rw [vector_set_other _ _ _ _ hq]
      exact hslots q

theorem resetWith_inv (c : Config) : (State.resetWith c).Inv := by
  refine ⟨fun p => pidSlotOk_iff.mpr ?_, rfl⟩
  rw [(resetWith_instances c).2 p]
  exact ⟨rfl, sumFits_of_integralSum_eq_zero _ rfl, .inr rfl⟩

/-- Settles O18: every slot of the reset state is at reset. -/
theorem resetStateIsLegal : Obligations.ResetStateIsLegal := ⟨resetWith_inv _, resetWith_inv⟩

/-- Settles O19: every part of a cycle keeps the invariant; the operations by `exec_keeps_inv`. -/
theorem everyStepKeepsTheStateLegal : Obligations.EveryStepKeepsTheStateLegal := by
  intro s t hs h
  exact step_keeps (P := State.Inv) (fun _ hu => ⟨hu.1, rfl⟩) (fun u _ => resetWith_inv u.cfg)
    (fun _ _ _ hu huv => exec_keeps_inv hu huv) (fun _ r hu => ⟨hu.1, responseOk_rejection r⟩) hs h

end Sys2Proof.Machine
end

section
/-! The scaled multiply (spec 42_saturating_arithmetic.md R115, R116) and the exactness of the raw signal
(43_pid_controller.md R139). -/

namespace Sys2Proof.Machine

/-! The scaled multiply. -/

/-- A quotient by 1024 of a 32-bit value is at most 2^21 in magnitude. -/
theorem natAbs_tdiv_sat_32_le (x : Int) : (Int.tdiv (sat 32 x) 1024).natAbs ≤ 2 ^ 21 := by
  have hrange := sat_32_range x
  rw [natAbs_tdiv_1024]
  omega

theorem sat_32_of_natAbs_le {x : Int} (h : x.natAbs ≤ 2147483647) : sat 32 x = x :=
  sat_of_range (by rw [minOf_32]; omega) (by rw [maxOf_32]; omega)

/-- The division never saturates: only the product is limited (R115). -/
theorem gmul_eq_scaledWide (k v : Int) : gmul k v = scaledWide k v := by
  have hbound := natAbs_tdiv_sat_32_le (k * v)
  rw [gmul_eq, sat_32_of_natAbs_le (by omega), scaledWide, sat_eq_limitTo]

theorem natAbs_gmul_le (k v : Int) : (gmul k v).natAbs ≤ 2 ^ 21 := by
  rw [gmul_eq_scaledWide, scaledWide, ← sat_eq_limitTo]
  exact natAbs_tdiv_sat_32_le (k * v)

/-- For 16-bit operands the product is not limited either. -/
theorem gmul_eq_scaled (k v : Word16) : gmul k.toInt v.toInt = scaled k.toInt v.toInt := by
  have hproduct := natAbs_mul_word16_le k v
  rw [gmul_eq_scaledWide, scaledWide, scaled, ← sat_eq_limitTo, sat_32_of_natAbs_le (by omega)]

/-- Settles O39: exact by `gmul_eq_scaled`, and the division divides the magnitude of the product. -/
theorem scaledMultiplyIsExactAndBounded : Obligations.ScaledMultiplyIsExactAndBounded := by
  refine ⟨fun k v => ?_, fun k v => natAbs_gmul_le k.toInt v.toInt⟩
  have hproduct := natAbs_mul_word16_le k v
  have hmagnitude : (gmul k.toInt v.toInt).natAbs = (k.toInt * v.toInt).natAbs / 1024 := by
    rw [gmul_eq_scaled, scaled, natAbs_tdiv_1024]
  refine ⟨gmul_eq_scaled k v, by omega, fun hsmall => ?_⟩
  rw [Nat.div_eq_of_lt hsmall] at hmagnitude
  exact Int.natAbs_eq_zero.mp hmagnitude

/-- Only the most negative value has no opposite in 16 bits. -/
theorem toInt_neg_word16 {v : Word16} (h : v ≠ -32768) : (-v).toInt = -v.toInt :=
  BitVec.toInt_neg_of_ne_intMin h

/-- Settles O40: division toward zero is odd in its dividend. -/
theorem scaledMultiplyIsOdd : Obligations.ScaledMultiplyIsOdd := by
  intro k v
  refine ⟨fun hv => ?_, fun hk => ?_⟩
  · rw [gmul_eq_scaled, gmul_eq_scaled, scaled, scaled, toInt_neg_word16 hv, Int.mul_neg, Int.neg_tdiv]
  · rw [gmul_eq_scaled, gmul_eq_scaled, scaled, scaled, toInt_neg_word16 hk, Int.neg_mul, Int.neg_tdiv]

/-! The additions of part D. -/

/-- A sum of at most three scaled products is far inside the 32-bit range. -/
theorem ssadd_32_of_natAbs_le {a b : Int} (ha : a.natAbs ≤ 2 ^ 22) (hb : b.natAbs ≤ 2 ^ 21) :
    ssadd 32 a b = a + b :=
  sat_32_of_natAbs_le (by omega)

/-- Settles O41: every term is a scaled product, so no addition reaches a bound, by `ssadd_32_of_natAbs_le`. -/
theorem rawSignalIsTheExactSum : Obligations.RawSignalIsTheExactSum := by
  intro m c err dIn isum
  have hp : (pTerm c err).natAbs ≤ 2 ^ 21 := natAbs_gmul_le _ _
  have hi : (iTerm c isum).natAbs ≤ 2 ^ 21 := natAbs_gmul_le _ _
  have hd : (dTerm c dIn).natAbs ≤ 2 ^ 21 := natAbs_gmul_le _ _
  cases m with
  | off | p | manual => rfl
  | pi => exact ssadd_32_of_natAbs_le (by omega) hp
  | pd => exact ssadd_32_of_natAbs_le (by omega) hp
  | pid =>
    rw [rawSignal, ssadd_32_of_natAbs_le (by omega) hp, ssadd_32_of_natAbs_le (by omega) hd]
    ring

end Sys2Proof.Machine
end

section
/-! The control step (spec 43_pid_controller.md R133 to R141, R156 to R159; 60_exceptions.md R187): the cells a compute
writes as values, and the properties of its output. -/

namespace Sys2Proof.Machine

/-! A compute on an existing instance. -/

/-- In a legal mode a compute writes the control step to its instance, answers the output and leaves the rest. -/
theorem exec_pidCompute_of_mode {p : Inst} {m : Mode} {s : State} (hp : p.val < s.cfg.nPid.toNat)
    (hm : s.pid[p].mode = m.toBits) (x sp : Word16) :
    ∃ t, exec (.pidCompute p x sp) s = .next t ∧ onlyPid p s t ∧
      t.pid[p] = computeStep s.cfg.wIsum m s.pid[p] x sp ∧ answers t t.pid[p].output := by
  have hrun : pidRun s.cfg.wIsum s.pid[p] (.pidCompute p x sp) =
      some (computeStep s.cfg.wIsum m s.pid[p] x sp, (computeStep s.cfg.wIsum m s.pid[p] x sp).output) := by
    rw [pidRun, mode_ofBits_eq_some.mpr hm, Option.map_some]
  have hwritten := vector_set_same s.pid p (computeStep s.cfg.wIsum m s.pid[p] x sp)
  refine ⟨_, exec_of_pidRun rfl hp hrun, onlyPid_setPid_respond s p _ _, hwritten, ?_⟩
  rw [State.respond_pid, State.setPid_pid, hwritten]
  exact answers_respond _ _

theorem exists_mode_of_lt {b : BitVec 3} (h : b.toNat < 6) : ∃ m : Mode, b = m.toBits := by
  obtain ⟨m, hm⟩ := Option.ne_none_iff_exists'.mp (mt mode_ofBits_eq_none.mp (not_le.mpr h))
  exact ⟨m, mode_ofBits_eq_some.mp hm⟩

/-- Settles O50: no mode to compute in, by `mode_ofBits_eq_none`. -/
theorem computeInAnIllegalModeFaults : Obligations.ComputeInAnIllegalModeFaults := by
  intro p x sp s hp hmode
  have hrun : pidRun s.cfg.wIsum s.pid[p] (.pidCompute p x sp) = none := by
    rw [pidRun, mode_ofBits_eq_none.mpr hmode, Option.map_none]
  rw [exec_of_pidOperand rfl, onPid_of_lt hp, hrun, State.pidOutcome]

/-! The values of the cells it writes. -/

/-- A value limited to 16 bits reads back as itself. -/
theorem toInt_cell16_sat (x : Int) : (cell16 (sat 16 x)).toInt = limitTo 16 x := by
  rw [toInt_cell16 (sat_16_range x), sat_eq_limitTo]

theorem toInt_derivativeInput (c : Pid) (x : Word16) :
    (derivativeInput c x).toInt = limitTo 16 (x.toInt - c.lastInput.toInt) := toInt_cell16_sat _

theorem toInt_controlError (x sp : Word16) : (controlError x sp).toInt = limitTo 16 (x.toInt - sp.toInt) :=
  toInt_cell16_sat _

theorem toInt_integralUpdate (w : IsumWidth) (c : Pid) (err : Word16) :
    (integralUpdate w c err).toInt =
      limitTo w.bits (limitTo w.bits (c.integralSum.toInt + err.toInt) -
        limitTo w.bits (scaled c.kw.toInt c.saturationAmount.toInt)) := by
  rw [integralUpdate, sssub, ssadd, antiWindup, toInt_cellSum_sat, gmul_eq_scaled, sat_eq_limitTo, sat_eq_limitTo,
    sat_eq_limitTo]

theorem rawSignal_eq_exactRaw (m : Mode) (c : Pid) (err dIn : Word16) (isum : Word32) :
    rawSignal m c err dIn isum = exactRaw m c err.toInt dIn.toInt isum.toInt := by
  rw [rawSignalIsTheExactSum m c err dIn isum]
  cases m with
  | off | manual => rfl
  | p => rw [pTerm, gmul_eq_scaled, exactRaw]
  | pi => rw [pTerm, iTerm, gmul_eq_scaled, gmul_eq_scaledWide, exactRaw]
  | pd => rw [pTerm, dTerm, gmul_eq_scaled, gmul_eq_scaled, exactRaw]
  | pid =>
    rw [pTerm, iTerm, dTerm, gmul_eq_scaled, gmul_eq_scaled, gmul_eq_scaledWide, exactRaw]
    ring

/-- Between the limits the raw signal is a 16-bit value, so the clamp stores it as it is (R140). -/
theorem toInt_clampedOutput (c : Pid) (raw : Int) :
    (clampedOutput c raw).toInt = clampTo c.minLimit.toInt c.maxLimit.toInt raw := by
  have hlo := word16_range c.minLimit
  have hhi := word16_range c.maxLimit
  rw [clampedOutput, clampTo]
  split_ifs with habove hbelow
  · rfl
  · rfl
  · exact toInt_cell16 ⟨hlo.1.trans (not_lt.mp hbelow), (not_lt.mp habove).trans hhi.2⟩

theorem toInt_clampExcess (c : Pid) (raw : Int) :
    (clampExcess c raw).toInt = limitTo 16 (excessOf c.minLimit.toInt c.maxLimit.toInt raw) := by
  rw [clampExcess, excessOf]
  split_ifs with habove hbelow
  · exact toInt_cell16_sat _
  · exact toInt_cell16_sat _
  · rfl

/-- Settles O49: decoding by `decodesBy_of_pidOpcodes`; each written cell by the rule of its part, and the other cells
by `pidCellsHaveOnlyTheirWriters`. -/
theorem computeFollowsTheControlLaw : Obligations.ComputeFollowsTheControlLaw := by
  refine ⟨fun c => decodesBy_of_pidOpcodes .pidCompute (by decide) rfl fun _ => rfl, fun p m x sp s hp hm => ?_⟩
  obtain ⟨t, hexec, honly, hwritten, hanswer⟩ := exec_pidCompute_of_mode hp hm x sp
  have hother := pidCellsHaveOnlyTheirWriters (.pidCompute p x sp) p
  refine ⟨t, _, hexec, honly, hanswer, ?_, ?_, ?_, ?_, ?_, ?_, rfl, ?_, ?_, fun cell => hother cell s t hexec⟩ <;>
    rw [hwritten]
  · rfl
  · rfl
  · rfl
  · exact toInt_derivativeInput _ _
  · exact toInt_controlError _ _
  · exact toInt_integralUpdate _ _ _
  · exact (toInt_clampedOutput _ _).trans (congrArg _ (rawSignal_eq_exactRaw _ _ _ _ _))
  · exact (toInt_clampExcess _ _).trans (congrArg _ (congrArg _ (rawSignal_eq_exactRaw _ _ _ _ _)))

/-! The output within the limits. -/

/-- The raw signal of the control step. -/
def rawOf (w : IsumWidth) (m : Mode) (c : Pid) (x sp : Word16) : Int :=
  rawSignal m c (controlError x sp) (derivativeInput c x) (integralUpdate w c (controlError x sp))

theorem computeStep_output (w : IsumWidth) (m : Mode) (c : Pid) (x sp : Word16) :
    (computeStep w m c x sp).output = clampedOutput c (rawOf w m c x sp) := rfl

theorem computeStep_saturationAmount (w : IsumWidth) (m : Mode) (c : Pid) (x sp : Word16) :
    (computeStep w m c x sp).saturationAmount = clampExcess c (rawOf w m c x sp) := rfl

theorem clampTo_range {lo hi : Int} (h : lo ≤ hi) (raw : Int) : lo ≤ clampTo lo hi raw ∧ clampTo lo hi raw ≤ hi := by
  rw [clampTo]
  split_ifs <;> omega

theorem clampTo_of_range {lo hi raw : Int} (hmin : lo ≤ raw) (hmax : raw ≤ hi) : clampTo lo hi raw = raw := by
  rw [clampTo, if_neg (not_lt.mpr hmax), if_neg (not_lt.mpr hmin)]

/-- Settles O51: the output is a clamped value, and the clamp lies between limits that are in order. -/
theorem computedOutputLiesWithinTheLimits : Obligations.ComputedOutputLiesWithinTheLimits := by
  intro p x sp s hp hmode hlimits
  obtain ⟨m, hm⟩ := exists_mode_of_lt hmode
  obtain ⟨t, hexec, -, hwritten, hanswer⟩ := exec_pidCompute_of_mode hp hm x sp
  refine ⟨t, hexec, hanswer, ?_⟩
  rw [hwritten, computeStep_output, toInt_clampedOutput]
  exact clampTo_range hlimits _

/-- Settles O53: in OFF the raw signal is 0. -/
theorem offComputesZeroClamped : Obligations.OffComputesZeroClamped := by
  intro p x sp s hp hmode
  obtain ⟨t, hexec, -, hwritten, hanswer⟩ := exec_pidCompute_of_mode (m := .off) hp hmode x sp
  refine ⟨t, hexec, hanswer, ?_⟩
  rw [hwritten, computeStep_output, toInt_clampedOutput]
  rfl

/-! A reconfigured controller. -/

/-- A controller just configured: the configuration of `PID.SETCFG`, every other cell as in `c`. -/
def Pid.configuredWith (c : Pid) (m : Mode) (kp ki kd kw lo hi : Word16) : Pid :=
  { c with mode := m.toBits, kp := kp, ki := ki, kd := kd, kw := kw, minLimit := lo, maxLimit := hi, integralSum := 0 }

/-- `PID.SETCFG` and then a compute, on an existing instance: the control step from the configured cells. -/
theorem runOps_setcfg_compute {p : Inst} {s : State} (hp : p.val < s.cfg.nPid.toNat) (m : Mode)
    (kp ki kd kw lo hi x sp : Word16) :
    ∃ t, runOps [.pidSetcfg p m kp ki kd kw lo hi, .pidCompute p x sp] s = .next t ∧
      t.pid[p] = computeStep s.cfg.wIsum m (s.pid[p].configuredWith m kp ki kd kw lo hi) x sp ∧
      answers t t.pid[p].output := by
  obtain ⟨u, hset, ⟨hcfg, -⟩, -, hconfigured⟩ := writePid_of_lt hp fun c => c.configuredWith m kp ki kd kw lo hi
  have hmode : u.pid[p].mode = m.toBits := by rw [hconfigured]; rfl
  obtain ⟨t, hcompute, -, hwritten, hanswer⟩ := exec_pidCompute_of_mode (hcfg ▸ hp) hmode x sp
  rw [hcfg, hconfigured] at hwritten
  refine ⟨t, ?_, hwritten, hanswer⟩
  have hset' : exec (.pidSetcfg p m kp ki kd kw lo hi) s = .next u := hset
  rw [runOps, hset', thenRun_of_next, runOps, hcompute]
  rfl

theorem gmul_zero_right (k : Int) : gmul k 0 = 0 := by
  rw [gmul_eq_scaledWide, scaledWide, mul_zero]
  rfl

/-- With no anti-windup term the accumulator of a controller just configured is that of a fresh one. -/
theorem integralUpdate_configuredWith {c : Pid} {kw : Word16} (hwindup : gmul kw.toInt c.saturationAmount.toInt = 0)
    (w : IsumWidth) (m : Mode) (kp ki kd lo hi err : Word16) :
    integralUpdate w (c.configuredWith m kp ki kd kw lo hi) err =
      integralUpdate w (Pid.reset.configuredWith m kp ki kd kw lo hi) err := by
  have hused : antiWindup (c.configuredWith m kp ki kd kw lo hi) = 0 := hwindup
  have hfresh : antiWindup (Pid.reset.configuredWith m kp ki kd kw lo hi) = 0 := gmul_zero_right kw.toInt
  rw [integralUpdate, integralUpdate, hused, hfresh]
  rfl

/-- A fresh controller's derivative input is the input itself. -/
theorem toInt_derivativeInput_configuredWith_reset (m : Mode) (kp ki kd kw lo hi x : Word16) :
    (derivativeInput (Pid.reset.configuredWith m kp ki kd kw lo hi) x).toInt = x.toInt := by
  obtain ⟨hmin, hmax⟩ := word16_range x
  rw [toInt_derivativeInput, ← sat_eq_limitTo]
  exact (congrArg (sat 16) (sub_zero x.toInt)).trans (sat_of_range hmin hmax)

/-- Where the last input does not reach the derivative term, the term is that of a fresh controller. -/
theorem dTerm_configuredWith {c : Pid} {kd x : Word16}
    (hderivative : gmul kd.toInt (sssub 16 x.toInt c.lastInput.toInt) = gmul kd.toInt x.toInt)
    (m : Mode) (kp ki kw lo hi : Word16) :
    dTerm (c.configuredWith m kp ki kd kw lo hi) (derivativeInput (c.configuredWith m kp ki kd kw lo hi) x) =
      dTerm (Pid.reset.configuredWith m kp ki kd kw lo hi)
        (derivativeInput (Pid.reset.configuredWith m kp ki kd kw lo hi) x) := by
  calc dTerm (c.configuredWith m kp ki kd kw lo hi) (derivativeInput (c.configuredWith m kp ki kd kw lo hi) x)
      = gmul kd.toInt (sssub 16 x.toInt c.lastInput.toInt) :=
        congrArg (gmul kd.toInt) (toInt_cell16 (sat_16_range _))
    _ = gmul kd.toInt x.toInt := hderivative
    _ = _ := congrArg (gmul kd.toInt) (toInt_derivativeInput_configuredWith_reset m kp ki kd kw lo hi x).symm

/-- The raw signal, clamped, is that of a fresh controller, under the conditions of R157: the anti-windup term of the
old excess, the derivative term and the output held in MANUAL are the three ways in which the past reaches it. -/
theorem clampTo_rawOf_configuredWith {m : Mode} {c : Pid} {kd kw lo hi x : Word16}
    (hwindup : m = .pi ∨ m = .pid → gmul kw.toInt c.saturationAmount.toInt = 0)
    (hderivative : m = .pd ∨ m = .pid →
      gmul kd.toInt (sssub 16 x.toInt c.lastInput.toInt) = gmul kd.toInt x.toInt)
    (houtput : m = .manual → clampTo lo.toInt hi.toInt c.output.toInt = clampTo lo.toInt hi.toInt 0)
    (w : IsumWidth) (kp ki sp : Word16) :
    clampTo lo.toInt hi.toInt (rawOf w m (c.configuredWith m kp ki kd kw lo hi) x sp) =
      clampTo lo.toInt hi.toInt (rawOf w m (Pid.reset.configuredWith m kp ki kd kw lo hi) x sp) := by
  cases m with
  | off | p => rfl
  | manual => exact houtput rfl
  | pi =>
    rw [rawOf, integralUpdate_configuredWith (hwindup (.inl rfl))]
    rfl
  | pd =>
    rw [rawOf, rawSignal, dTerm_configuredWith (hderivative (.inl rfl))]
    rfl
  | pid =>
    rw [rawOf, rawSignal, dTerm_configuredWith (hderivative (.inr rfl)),
      integralUpdate_configuredWith (hwindup (.inr rfl))]
    rfl

/-- Settles O52: both runs end in the control step of `runOps_setcfg_compute`, and the clamped raw signals agree. -/
theorem reconfiguredControllerMatchesAFreshOne : Obligations.ReconfiguredControllerMatchesAFreshOne := by
  intro p m kp ki kd kw lo hi x sp s hp hwindup hderivative houtput
  obtain ⟨t, ht, hwritten, hanswer⟩ := runOps_setcfg_compute hp m kp ki kd kw lo hi x sp
  obtain ⟨u, hu, hwritten', hanswer'⟩ :=
    runOps_setcfg_compute (s := State.resetWith s.cfg) hp m kp ki kd kw lo hi x sp
  rw [(resetWith_instances s.cfg).2 p] at hwritten'
  have houtputs : t.pid[p].output = u.pid[p].output := by
    rw [hwritten, hwritten', computeStep_output, computeStep_output]
    apply BitVec.eq_of_toInt_eq
    rw [toInt_clampedOutput, toInt_clampedOutput]
    exact clampTo_rawOf_configuredWith hwindup hderivative houtput s.cfg.wIsum kp ki sp
  refine ⟨t, u, ht, hu, houtputs, ?_⟩
  rw [hanswer, hanswer', houtputs]

/-- Settles O58: the Scenario of R159, run. -/
theorem scenarioClampsAndRecordsTheExcess : Obligations.ScenarioClampsAndRecordsTheExcess :=
  ⟨_, _, rfl, rfl, by decide, by decide, rfl, rfl, by decide, by decide, by decide, by decide⟩

end Sys2Proof.Machine
end

section
/-! Sequences of operations on one PID instance (spec 10_state.md R23, R36 b to d; 43_pid_controller.md R146, R158):
what a compute or a reconfiguration leaves, and which operations keep it. -/

namespace Sys2Proof.Machine

/-- Operations that lead on from every state of `P`, and stay in `P`, lead on in every sequence. -/
theorem runOps_reaches {P : State → Prop} {ok : Instr → Prop}
    (hstep : ∀ op s, ok op → P s → ∃ t, exec op s = .next t ∧ P t) :
    ∀ (ops : List Instr) (s : State), (∀ op ∈ ops, ok op) → P s → ∃ t, runOps ops s = .next t ∧ P t := by
  intro ops
  induction ops with
  | nil => exact fun s _ hs => ⟨s, rfl, hs⟩
  | cons op rest ih =>
    intro s hok hs
    obtain ⟨u, hexec, hu⟩ := hstep op s (hok op List.mem_cons_self) hs
    obtain ⟨t, hrun, ht⟩ := ih u (fun op' hop' => hok op' (List.mem_cons_of_mem _ hop')) hu
    exact ⟨t, by rw [runOps, hexec, thenRun_of_next, hrun], ht⟩

theorem runOps_singleton (op : Instr) (s : State) : runOps [op] s = exec op s := by
  rw [runOps]
  cases exec op s <;> rfl

/-- One more operation at the end of a sequence. -/
theorem runOps_concat {ops : List Instr} {op : Instr} {s t u : State} (hops : runOps ops s = .next t)
    (hop : exec op t = .next u) : runOps (ops ++ [op]) s = .next u := by
  rw [runOps_append, hops, thenRun_of_next, runOps_singleton, hop]

/-! The output held in MANUAL. -/

/-- The instance `p` exists, is in MANUAL, and holds the output `v`, which is within its limits. -/
structure HoldsOutput (p : Inst) (v : Word16) (s : State) : Prop where
  present : p.val < s.cfg.nPid.toNat
  manual : s.pid[p].mode = Mode.manual.toBits
  min_le : s.pid[p].minLimit.toInt ≤ v.toInt
  le_max : v.toInt ≤ s.pid[p].maxLimit.toInt
  output : s.pid[p].output = v

theorem excessOf_of_range {lo hi raw : Int} (hmin : lo ≤ raw) (hmax : raw ≤ hi) : excessOf lo hi raw = 0 := by
  rw [excessOf, if_neg (not_lt.mpr hmax), if_neg (not_lt.mpr hmin)]

/-- A value within the limits passes the clamp, and leaves no excess (R140). -/
theorem clamp_of_range {c : Pid} {v : Word16} (hmin : c.minLimit.toInt ≤ v.toInt) (hmax : v.toInt ≤ c.maxLimit.toInt) :
    clampedOutput c v.toInt = v ∧ clampExcess c v.toInt = 0 := by
  constructor <;> apply BitVec.eq_of_toInt_eq
  · rw [toInt_clampedOutput, clampTo_of_range hmin hmax]
  · rw [toInt_clampExcess, excessOf_of_range hmin hmax]
    rfl

/-- A compute in MANUAL answers the output and holds it (R138, R158). -/
theorem HoldsOutput.compute {p : Inst} {v : Word16} {s : State} (hs : HoldsOutput p v s) (x sp : Word16) :
    ∃ t, exec (.pidCompute p x sp) s = .next t ∧ HoldsOutput p v t ∧ answers t v ∧ t.pid[p].saturationAmount = 0 := by
  obtain ⟨t, hexec, ⟨hcfg, -⟩, hwritten, hanswer⟩ := exec_pidCompute_of_mode hs.present hs.manual x sp
  have hraw : rawOf s.cfg.wIsum .manual s.pid[p] x sp = v.toInt := congrArg BitVec.toInt hs.output
  obtain ⟨hpassed, hexcess⟩ := clamp_of_range hs.min_le hs.le_max
  have houtput : t.pid[p].output = v := by rw [hwritten, computeStep_output, hraw, hpassed]
  refine ⟨t, hexec, ⟨hcfg ▸ hs.present, ?_, ?_, ?_, houtput⟩, houtput ▸ hanswer, ?_⟩ <;> rw [hwritten]
  · exact hs.manual
  · exact hs.min_le
  · exact hs.le_max
  · rw [computeStep_saturationAmount, hraw, hexcess]

/-- So do any number of computes. -/
theorem HoldsOutput.computes {p : Inst} {v : Word16} {s : State} (hs : HoldsOutput p v s)
    (operands : List (Word16 × Word16)) :
    ∃ t, runOps (operands.map fun q => .pidCompute p q.1 q.2) s = .next t ∧ HoldsOutput p v t := by
  refine runOps_reaches (ok := fun op => ∃ x sp, op = .pidCompute p x sp) ?step _ s ?computes hs
  case step =>
    rintro op u ⟨x, sp, rfl⟩ hu
    obtain ⟨t, hexec, ht, -⟩ := hu.compute x sp
    exact ⟨t, hexec, ht⟩
  case computes =>
    intro op hop
    obtain ⟨q, -, rfl⟩ := List.mem_map.mp hop
    exact ⟨q.1, q.2, rfl⟩

/-- Settles O54: `PID.SETOUT` establishes `HoldsOutput`, and every compute keeps it. -/
theorem manualHoldsTheSetOutput : Obligations.ManualHoldsTheSetOutput := by
  intro p v operands x sp s hp hmode hmin hmax
  obtain ⟨s₁, hset, ⟨hcfg, -⟩, -, hwritten⟩ := writePid_of_lt hp fun c => { c with output := v }
  have hs₁ : HoldsOutput p v s₁ := by
    refine ⟨hcfg ▸ hp, ?_, ?_, ?_, ?_⟩ <;> rw [hwritten]
    · exact hmode
    · exact hmin
    · exact hmax
  obtain ⟨s₂, hrun, hs₂⟩ := hs₁.computes operands
  obtain ⟨t, hexec, ht, hanswer, hexcess⟩ := hs₂.compute x sp
  refine ⟨t, runOps_concat ?_ hexec, hanswer, ht.output, hexcess⟩
  have hset' : exec (.pidSetout p v) s = .next s₁ := hset
  rw [runOps, hset', thenRun_of_next, hrun]

/-! Which cells are written together (R20). -/

/-- Only `PID.SETCFG` writes the limits, and it writes both. -/
theorem mayWrite_maxLimit (p : Inst) (op : Instr) : mayWrite p .maxLimit op = mayWrite p .minLimit op := by
  cases op <;> simp [mayWrite, pidWrites]

/-- Only a compute writes `saturation_amount`, and it writes `output`. -/
theorem mayWrite_saturationAmount {p : Inst} {op : Instr} (h : mayWrite p .output op = false) :
    mayWrite p .saturationAmount op = false := by
  cases op with
  | pidCompute => simpa [mayWrite, pidWrites] using h
  | _ => simp [mayWrite, pidWrites]

/-- Only a compute writes `last_input`, and it writes `input`. -/
theorem mayWrite_lastInput {p : Inst} {op : Instr} (h : mayWrite p .input op = false) :
    mayWrite p .lastInput op = false := by
  cases op with
  | pidCompute => simpa [mayWrite, pidWrites] using h
  | _ => simp [mayWrite, pidWrites]

/-! What a compute records of its clamp. -/

theorem clampOf_eq_high_iff {c : Pid} : clampOf c = .high ↔ 0 < c.saturationAmount.toInt := by
  rw [clampOf]
  split_ifs <;> simp [*]

theorem clampOf_eq_low_iff {c : Pid} : clampOf c = .low ↔ c.saturationAmount.toInt < 0 := by
  rw [clampOf]
  split_ifs with hhigh hlow
  · exact iff_of_false nofun (by omega)
  · exact iff_of_true rfl hlow
  · exact iff_of_false nofun hlow

theorem limitTo_16_pos_iff {x : Int} : 0 < limitTo 16 x ↔ 0 < x := by
  rw [← sat_eq_limitTo, sat_16]
  omega

theorem limitTo_16_neg_iff {x : Int} : limitTo 16 x < 0 ↔ x < 0 := by
  rw [← sat_eq_limitTo, sat_16]
  omega

theorem excessOf_pos_iff {lo hi raw : Int} : 0 < excessOf lo hi raw ↔ hi < raw := by
  rw [excessOf]
  split_ifs <;> omega

theorem excessOf_neg_iff {lo hi raw : Int} : excessOf lo hi raw < 0 ↔ raw ≤ hi ∧ raw < lo := by
  rw [excessOf]
  split_ifs <;> omega

/-- The sign of the recorded excess is the limit that the output was set to (R140). -/
theorem clampRecorded_computeStep (w : IsumWidth) (m : Mode) (c : Pid) (x sp : Word16) :
    clampRecorded (computeStep w m c x sp) := by
  refine ⟨fun hlimits => ?range, fun hclamp => ?high, fun hclamp => ?low⟩
  case range =>
    have houtput : sext (computeStep w m c x sp).output = clampTo (sext c.minLimit) (sext c.maxLimit)
        (rawOf w m c x sp) := toInt_clampedOutput c _
    rw [houtput]
    exact clampTo_range hlimits _
  case high =>
    rw [clampOf_eq_high_iff, computeStep_saturationAmount, toInt_clampExcess, limitTo_16_pos_iff,
      excessOf_pos_iff] at hclamp
    rw [computeStep_output, clampedOutput, if_pos hclamp]
    rfl
  case low =>
    rw [clampOf_eq_low_iff, computeStep_saturationAmount, toInt_clampExcess, limitTo_16_neg_iff,
      excessOf_neg_iff] at hclamp
    obtain ⟨hnothigh, hlow⟩ := hclamp
    rw [computeStep_output, clampedOutput, if_neg (not_lt.mpr hnothigh), if_pos hlow]
    rfl

/-- A compute on an existing instance that has a next state has done the control step of some mode. -/
theorem exec_pidCompute_next {p : Inst} {x sp : Word16} {s t : State} (hp : p.val < s.cfg.nPid.toNat)
    (h : exec (.pidCompute p x sp) s = .next t) : ∃ m, t.pid[p] = computeStep s.cfg.wIsum m s.pid[p] x sp := by
  obtain hlt | hge := lt_or_ge s.pid[p].mode.toNat 6
  · obtain ⟨m, hm⟩ := exists_mode_of_lt hlt
    obtain ⟨u, hexec, -, hwritten, -⟩ := exec_pidCompute_of_mode hp hm x sp
    cases hexec.symm.trans h
    exact ⟨m, hwritten⟩
  · cases (computeInAnIllegalModeFaults p x sp s hp hge).symm.trans h

/-- Settles O55: the record reads four cells, and only the three excluded operations write one of them. -/
theorem clampRecordHoldsUntilRewritten : Obligations.ClampRecordHoldsUntilRewritten := by
  intro p x sp ops s t u hp hcompute hok hrun
  refine runOps_keeps (fun v => clampRecorded v.pid[p])
    (fun op => mayWrite p .output op = false ∧ mayWrite p .minLimit op = false) ?_ ops t u hok ?_ hrun
  · rintro op v v' ⟨houtput, hmin⟩ hrecorded hexec
    have kept (cell : PidCell) := pidCellsHaveOnlyTheirWriters op p cell v v' hexec
    have kept_output : v'.pid[p].output = v.pid[p].output := BitVec.eq_of_toInt_eq (kept .output houtput)
    have kept_min : v'.pid[p].minLimit = v.pid[p].minLimit := BitVec.eq_of_toInt_eq (kept .minLimit hmin)
    have kept_max : v'.pid[p].maxLimit = v.pid[p].maxLimit :=
      BitVec.eq_of_toInt_eq (kept .maxLimit (mayWrite_maxLimit p op ▸ hmin))
    have kept_excess : v'.pid[p].saturationAmount = v.pid[p].saturationAmount :=
      BitVec.eq_of_toInt_eq (kept .saturationAmount (mayWrite_saturationAmount houtput))
    rw [clampRecorded, clampOf, kept_output, kept_min, kept_max, kept_excess]
    exact hrecorded
  · obtain ⟨m, hwritten⟩ := exec_pidCompute_next hp hcompute
    rw [hwritten]
    exact clampRecorded_computeStep _ m _ x sp

/-! The accumulator and the last input. -/

/-- The operations that write the mode of an instance are `PID.SETCFG` and `PID.SETMODE`, and they zero the accumulator
(R131, R132). -/
theorem exec_mode_writer_zeroes {op : Instr} {p : Inst} {s t : State} (hp : p.val < s.cfg.nPid.toNat)
    (hop : mayWrite p .mode op = true) (h : exec op s = .next t) : t.pid[p].integralSum = 0 := by
  cases op with
  | pidSetcfg n | pidSetmode n =>
    obtain rfl : n = p := by simpa [mayWrite, pidWrites] using hop
    cases (exec_of_pidRun rfl hp rfl).symm.trans h
    exact congrArg Pid.integralSum (vector_set_same s.pid n _)
  | _ => simp [mayWrite, pidWrites] at hop

/-- A zero accumulator stays zero under every operation but a compute on its instance. -/
theorem exec_keeps_integralSum_zero {op : Instr} {p : Inst} {s t : State} (hop : ∀ x sp, op ≠ .pidCompute p x sp)
    (hs : s.pid[p].integralSum = 0) (h : exec op s = .next t) : t.pid[p].integralSum = 0 := by
  cases exec_next_effect h with
  | @pid _ n _ d data hn hp hrun =>
    rw [State.respond_pid, State.setPid_pid]
    by_cases hpn : p = n
    · subst hpn
      rw [vector_set_same]
      obtain ⟨-, hkept⟩ | ⟨-, hzero⟩ | ⟨q, x, sp, m, rfl, -, -⟩ := pidRun_mode_integralSum hrun
      · rw [hkept, hs]
      · exact hzero
      · cases hn
        exact absurd rfl (hop x sp)
    · rw [vector_set_other _ _ _ _ hpn, hs]
  | _ => exact hs

/-- Settles O56: the accumulator by `exec_keeps_integralSum_zero`; `input` and `last_input` are written together but by
`PID.SETIN`. -/
theorem accumulatorAndLastInputInvariants : Obligations.AccumulatorAndLastInputInvariants := by
  constructor
  · intro op p ops s t u hp hop hexec hok hrun
    exact runOps_keeps (fun v => v.pid[p].integralSum = 0) (fun op => ∀ x sp, op ≠ .pidCompute p x sp)
      (fun _ _ _ hok hv h => exec_keeps_integralSum_zero hok hv h) ops t u hok
      (exec_mode_writer_zeroes hp hop hexec) hrun
  · intro p x sp ops s t u hp hexec hok hrun
    refine runOps_keeps (fun v => v.pid[p].lastInput = v.pid[p].input) (fun op => mayWrite p .input op = false) ?_ ops t
      u hok ?_ hrun
    · intro op v v' hinput hv h
      have kept (cell : PidCell) := pidCellsHaveOnlyTheirWriters op p cell v v' h
      have kept_input : v'.pid[p].input = v.pid[p].input := BitVec.eq_of_toInt_eq (kept .input hinput)
      have kept_last : v'.pid[p].lastInput = v.pid[p].lastInput :=
        BitVec.eq_of_toInt_eq (kept .lastInput (mayWrite_lastInput hinput))
      rw [kept_input, kept_last, hv]
    · obtain ⟨m, hwritten⟩ := exec_pidCompute_next hp hexec
      rw [hwritten]
      rfl

/-! Limits never configured. -/

/-- A legal machine with the parameters `c` whose instance `p` has both limits zero (R23). -/
structure Unconfigured (c : Config) (p : Inst) (s : State) : Prop where
  inv : s.Inv
  cfg : s.cfg = c
  minLimit : s.pid[p].minLimit = 0
  maxLimit : s.pid[p].maxLimit = 0

theorem resetWith_unconfigured (c : Config) (p : Inst) : Unconfigured c p (State.resetWith c) := by
  have hpid := (resetWith_instances c).2 p
  exact ⟨resetWith_inv c, rfl, congrArg Pid.minLimit hpid, congrArg Pid.maxLimit hpid⟩

/-- Every operation leads on, and without `PID.SETCFG` on the instance the limits stay zero. -/
theorem Unconfigured.exec_next {c : Config} {p : Inst} {op : Instr} {s : State} (hs : Unconfigured c p s)
    (hop : mayWrite p .maxLimit op = false) : ∃ t, exec op s = .next t ∧ Unconfigured c p t := by
  obtain ⟨t, hexec⟩ := exec_progress hs.inv op
  have kept (cell : PidCell) := pidCellsHaveOnlyTheirWriters op p cell s t hexec
  have kept_min : t.pid[p].minLimit = s.pid[p].minLimit :=
    BitVec.eq_of_toInt_eq (kept .minLimit (mayWrite_maxLimit p op ▸ hop))
  have kept_max : t.pid[p].maxLimit = s.pid[p].maxLimit := BitVec.eq_of_toInt_eq (kept .maxLimit hop)
  exact ⟨t, hexec, exec_keeps_inv hs.inv hexec, (exec_next_cfg_inputs hexec).1.trans hs.cfg,
    kept_min.trans hs.minLimit, kept_max.trans hs.maxLimit⟩

/-- Settles O57: the limits are zero from reset on, and so is an output between them. -/
theorem unconfiguredControllerAnswersZero : Obligations.UnconfiguredControllerAnswersZero := by
  intro c p x sp ops hp hok
  obtain ⟨s, hrun, hs⟩ := runOps_reaches (P := Unconfigured c p) (ok := fun op => mayWrite p .maxLimit op = false)
    (fun _ _ hop hu => hu.exec_next hop) ops _ hok (resetWith_unconfigured c p)
  have hlimits : s.pid[p].minLimit.toInt ≤ s.pid[p].maxLimit.toInt := by rw [hs.minLimit, hs.maxLimit]
  obtain ⟨t, hexec, hanswer, hmin, hmax⟩ :=
    computedOutputLiesWithinTheLimits p x sp s (hs.cfg ▸ hp) (hs.inv.mode_lt p) hlimits
  rw [hs.minLimit] at hmin
  rw [hs.maxLimit] at hmax
  have hzero : t.pid[p].output = 0 := BitVec.eq_of_toInt_eq (le_antisymm hmax hmin)
  exact ⟨t, runOps_concat hrun hexec, hzero ▸ hanswer⟩

end Sys2Proof.Machine
end
